-- ==== Sys2Proof/Word.lean ====
section
/-! DEFINITION. The bit vectors the spec names: bytes of `FB`, 16-bit and 32-bit registers, the 48-bit patch
operands, command words and 17-bit host addresses (00_scope.md R8, R9; 20_memory.md R51). -/

namespace Sys2Proof

/-- One byte of the frame buffer `FB` (10_state.md R40). -/
abbrev Byte := BitVec 8

/-- A 16-bit register value or checksum word (10_state.md R32 to R38). -/
abbrev Half := BitVec 16

/-- A 32-bit register value, the accumulator, or a command word (00_scope.md R8). -/
abbrev Word := BitVec 32

/-- The 48-bit patch value and mask (10_state.md R36, R37). -/
abbrev Wide := BitVec 48

/-- A host-space byte address, 17 bits (20_memory.md R51). -/
abbrev HostAddr := BitVec 17

end Sys2Proof
end

