-- ==== Sys2Proof/Config.lean ====
section
/-! DEFINITION. What an implementation fixes: the open parameter `FRAME_CAP` (00_scope.md R7, decision D4, item I2).
Nothing else varies between implementations (R8). -/

namespace Sys2Proof.Config

/-- The smallest capacity: 42 bytes hold the three headers (00_scope.md R7). -/
def frameCapMin : Nat := 42

/-- The largest capacity: what the 16-bit `OFF` and `LEN` can address (00_scope.md R7). -/
def frameCapMax : Nat := 65535

/-- How far `FRAME_CAP` lies above its least value: uninterpreted, so that no proof can know the capacity. The spec
leaves `FRAME_CAP` open between 42 and 65535 (00_scope.md R7); a log entry (1) names it. -/
opaque frameCapAboveMin : Fin 65494

/-- `FRAME_CAP` of the machine at power-on: any number from 42 to 65535, which one is not known (00_scope.md R7). -/
def frameCap : Nat := frameCapMin + frameCapAboveMin.val

end Sys2Proof.Config
end

