-- ==== Sys2Proof/Syntax.lean ====
section
/-! DEFINITION. The command set: one constructor for each row of the opcode map (30_encoding.md R72). -/

namespace Sys2Proof

/-- The engine's commands (30_encoding.md R72). Only PATCH has operands in its word: the field selector SEL and the
repair bit R (R74). -/
inductive Instr where
  /-- NOP, no operation (42_control.md R140). -/
  | nop
  /-- CSUM, checksum of `FB[OFF .. OFF+LEN-1]` (40_checksum.md R104). -/
  | csum
  /-- REPAIR, recompute the IPv4 header checksum in place (40_checksum.md R106). -/
  | repair
  /-- PATCH, masked write of `PVAL` into header field `sel`, with REPAIR after it if `r` (41_patcher.md R121, R122). -/
  | patch (sel : BitVec 5) (r : Bool)
  /-- TXLEN, derive the send length (42_control.md R141). -/
  | txlen
  deriving DecidableEq, Repr

end Sys2Proof
end

