-- ==== Sys2Proof/WellFormed.lean ====
section
/-! DEFINITION. Which terms of `Instr` are commands of the engine (30_encoding.md R75, R78). -/

namespace Sys2Proof

/-- The number of field selectors of the layout table (30_encoding.md R75, R76). -/
abbrev fieldCount : Nat := 17

/-- A command is well formed if its field selector names a header field: values 17 to 31 are reserved
(30_encoding.md R75). The other commands have no operand in their word. -/
def Instr.wf : Instr → Bool
  | .nop => true
  | .csum => true
  | .repair => true
  | .patch sel _ => decide (sel.toNat < fieldCount)
  | .txlen => true

end Sys2Proof
end

