-- ==== Sys2Proof/Decode.lean ====
section
/-! DEFINITION. The command decoder (30_encoding.md R73), total on 32-bit words and rejecting by error code, and the
encoder, both from the two formats of R71 and the opcode map of R72. -/

namespace Sys2Proof

/-- The three error causes (60_exceptions.md R151). Decoding raises the first two; CSUM and TXLEN raise `range`. -/
inductive ErrorCode where
  /-- Code 1, IllegalOpcode: `w[31:28]` in 0x5 to 0xF (30_encoding.md R77). -/
  | illegalOpcode
  /-- Code 2, ReservedField: a nonzero reserved field, or SEL at or above 17 (30_encoding.md R75, R78). -/
  | reservedField
  /-- Code 3, Range: a byte range or a send length above `FRAME_CAP` (40_checksum.md R104, 42_control.md R141). -/
  | range
  deriving DecidableEq, Repr

/-- OP, bits [31:28] of a command word (30_encoding.md R71). -/
def opField (w : Word) : BitVec 4 := w.extractLsb' 28 4

/-- SEL, bits [27:23] of a format P word (30_encoding.md R71). -/
def selField (w : Word) : BitVec 5 := w.extractLsb' 23 5

/-- R, bit [22] of a format P word (30_encoding.md R71). -/
def repairBit (w : Word) : Bool := w.getLsbD 22

/-- RSV28, the reserved bits [27:0] of a format N word (30_encoding.md R71). -/
def reservedN (w : Word) : BitVec 28 := w.extractLsb' 0 28

/-- RSV22, the reserved bits [21:0] of a format P word (30_encoding.md R71). -/
def reservedP (w : Word) : BitVec 22 := w.extractLsb' 0 22

/-- The decoder of 30_encoding.md R73: the checks in its order, the first failing one deciding the error. -/
def decode (w : Word) : Except ErrorCode Instr :=
  if 5 ≤ (opField w).toNat then .error .illegalOpcode
  else if opField w = 3#4 then
    if reservedP w ≠ 0#22 then .error .reservedField
    else if fieldCount ≤ (selField w).toNat then .error .reservedField
    else .ok (.patch (selField w) (repairBit w))
  else if reservedN w ≠ 0#28 then .error .reservedField
  else if opField w = 0#4 then .ok .nop
  else if opField w = 1#4 then .ok .csum
  else if opField w = 2#4 then .ok .repair
  else .ok .txlen

/-- A format N word: the opcode over 28 zero bits (30_encoding.md R71). -/
def encodeN (op : BitVec 4) : Word := op ++ 0#28

/-- A format P word: OP 0x3, SEL, R, then 22 zero bits (30_encoding.md R71). -/
def encodeP (sel : BitVec 5) (r : Bool) : Word := 3#4 ++ (sel ++ (BitVec.ofBool r ++ 0#22))

/-- The word of a command, by the opcode map of 30_encoding.md R72. -/
def encode : Instr → Word
  | .nop => encodeN 0#4
  | .csum => encodeN 1#4
  | .repair => encodeN 2#4
  | .patch sel r => encodeP sel r
  | .txlen => encodeN 4#4

/-- The command word whose low `nbits` bits are those of `w` and whose other bits are 0. Every command is one 32-bit
word (30_encoding.md R70), so bit k of `w` is bit k of the word. -/
def tableWord (nbits w : Nat) : Word := BitVec.ofNat 32 (w % 2 ^ nbits)

/-- What the decoder reads from a word of the opcode table, or none where it raises an error. -/
def decodeTableWord (nbits w : Nat) : Option Instr :=
  match decode (tableWord nbits w) with
  | .ok i => some i
  | .error _ => none

end Sys2Proof
end

