-- ==== Sys2Proof/Machine/State.lean ====
section
/-! DEFINITION. The machine's state as plain data (10_state.md section 1), the reasons a step can stop, and the state
after reset (70_reset_and_hazards.md R170). -/

namespace Sys2Proof.Machine

/-- The frame buffer `FB` together with the marks `written` (10_state.md R40, R41): the written bytes by offset, in
rising order. Offset i is listed exactly when `written[i]` is true, so a byte without a value is a byte not listed
(log entry 2). -/
abbrev Memory := List Host.Cell

/-- The canonical form of `FB`: offsets strictly rising, so that equal buffers are equal lists. -/
abbrev Memory.wf (m : Memory) : Prop := m.Pairwise (fun p q => p.1 < q.1)

/-- One thing the outside world does to the engine: the four host operations of 20_memory.md R51, at the level of the
bus port (a 32-bit or 8-bit access to any 17-bit address, decision D33), and the reset input (70_reset_and_hazards.md
R171), which a model takes between steps only (R172). -/
inductive Input where
  /-- `RegRead(a)`: a 32-bit host read (20_memory.md R54). -/
  | regRead (a : HostAddr)
  /-- `RegWrite(a, v)`: a 32-bit host write (20_memory.md R54). -/
  | regWrite (a : HostAddr) (v : Word)
  /-- `FbRead(a)`: an 8-bit host read (20_memory.md R55). -/
  | fbRead (a : HostAddr)
  /-- `FbWrite(a, b)`: an 8-bit host write (20_memory.md R55). -/
  | fbWrite (a : HostAddr) (b : Byte)
  /-- Reset is asserted and released (70_reset_and_hazards.md R171). -/
  | reset
  deriving DecidableEq, Repr

/-- The value a host read returned: a register word or a byte of the FB window (20_memory.md R54, R55). -/
inductive ReadValue where
  | word (v : Word)
  | byte (b : Byte)
  deriving DecidableEq, Repr

/-- The access sizes of the host port (decision D33). -/
inductive AccessSize where
  | bits8
  | bits32
  deriving DecidableEq, Repr

/-- The registers of the host map (20_memory.md R52). -/
inductive Reg where
  | id | cap | cmd | status | off | len | result | sum | pvalLo | pvalHi | pmskLo | pmskHi | txlen
  deriving DecidableEq, Repr

/-- The state of the engine (10_state.md section 1), with the outside world's pending inputs and the values its reads
returned (70_reset_and_hazards.md R177). `ID` is a constant and `CMD` holds no value, so neither is a field. -/
structure State where
  /-- `FRAME_CAP`, what the constant register `CAP` reads (10_state.md R25, 00_scope.md R7; log entry 1). -/
  frameCap : Nat
  /-- `FB` and the marks `written` (10_state.md R40, R41). -/
  fb : Memory
  /-- `STATUS` (10_state.md R27). -/
  status : Word
  /-- `OFF` (10_state.md R32). -/
  off : Half
  /-- `LEN` (10_state.md R33). -/
  len : Half
  /-- `RESULT` (10_state.md R34). -/
  result : Half
  /-- `SUM` (10_state.md R35). -/
  sum : Half
  /-- `PVAL_LO` (10_state.md R36). -/
  pvalLo : Word
  /-- `PVAL_HI` (10_state.md R36). -/
  pvalHi : Half
  /-- `PMSK_LO` (10_state.md R37). -/
  pmskLo : Word
  /-- `PMSK_HI` (10_state.md R37). -/
  pmskHi : Half
  /-- `TXLEN` (10_state.md R38). -/
  txlen : Half
  /-- The model's own: what the outside world does next, oldest first (70_reset_and_hazards.md R177; log entry 4). -/
  inputs : List Input
  /-- The model's own: the values host reads returned since reset, oldest first (R177; log entry 6). -/
  observed : List ReadValue
  deriving DecidableEq, Repr

/-- Why a run ends with a fault. -/
inductive Fault where
  /-- UninitRead(i): a host byte read or a command read `FB[i]` while `written[i]` is false
  (70_reset_and_hazards.md R174). Raised by CSUM, REPAIR, PATCH, TXLEN and the host's byte read. Safe: the hardware
  goes on with a byte the spec does not fix, so the fault makes claims unprovable and none false. -/
  | uninitRead (i : Nat)
  deriving DecidableEq, Repr

/-- Why a step has no meaning. -/
inductive Refusal where
  /-- An instruction without a meaning yet, by its mnemonic. Raised by a refused arm of `exec` only; safe. -/
  | notModelled (mnemonic : String)
  /-- A host access outside the interface contract: wrong size or alignment for its region (20_memory.md R54, R55;
  93_implementation_defined.md I3). Raised by a host access, never by a command. Safe: the spec gives it no
  response. -/
  | outsideContract (a : HostAddr) (size : AccessSize)
  deriving DecidableEq, Repr

/-- The state after reset of an engine whose capacity is `cap` (70_reset_and_hazards.md R170): every register at its
reset value, no byte of `FB` written. -/
def State.resetWith (cap : Nat) : State where
  frameCap := cap
  fb := []
  status := 0#32
  off := 0#16
  len := 0#16
  result := 0#16
  sum := 0#16
  pvalLo := 0#32
  pvalHi := 0#16
  pmskLo := 0#32
  pmskHi := 0#16
  txlen := 0#16
  inputs := []
  observed := []

/-- The machine right after reset (70_reset_and_hazards.md R170), its capacity the open parameter (00_scope.md R7). -/
def State.reset : State := State.resetWith Config.frameCap

end Sys2Proof.Machine
end

