-- ==== Sys2Proof/Machine/Flags.lean ====
section
/-! DEFINITION. The fields of `STATUS` and every computation on them (10_state.md R27 to R31, 60_exceptions.md R152). -/

namespace Sys2Proof.Machine

/-- Replace the `k` bits of `x` from bit `lo` up by `v`, leaving the others (00_scope.md R9). -/
def setField {k : Nat} (x : Word) (lo : Nat) (v : BitVec k) : Word :=
  (x &&& ~~~((BitVec.allOnes k).setWidth 32 <<< lo)) ||| (v.setWidth 32 <<< lo)

/-- `STATUS.ZERO`, bit [0] (10_state.md R28). -/
def statusZero (st : Word) : Bool := st.getLsbD 0

/-- The sticky error bits, `STATUS[10:8]` (10_state.md R29). -/
def statusErr (st : Word) : BitVec 3 := st.extractLsb' 8 3

/-- `STATUS.ECODE`, bits [19:16] (10_state.md R30). -/
def statusEcode (st : Word) : BitVec 4 := st.extractLsb' 16 4

/-- The number of an error cause (60_exceptions.md R151). -/
def errorNumber : ErrorCode → Nat
  | .illegalOpcode => 1
  | .reservedField => 2
  | .range => 3

/-- `STATUS` after raising an error: its sticky bit `7 + k` set and `ECODE` its code `k` (60_exceptions.md R152). -/
def statusAfterError (k : ErrorCode) (st : Word) : Word :=
  setField (setField st (7 + errorNumber k) 1#1) 16 (BitVec.ofNat 4 (errorNumber k))

/-- `STATUS` after a checksum computation with checksum `c`: ZERO tells whether `c` is 0x0000 (10_state.md R28). -/
def statusAfterChecksum (c : Half) (st : Word) : Word :=
  setField st 0 (BitVec.ofBool (c == 0#16))

/-- `STATUS` after a host write of `v`: ones clear sticky bits, and `ECODE` becomes 0 when none is left
(10_state.md R31). -/
def statusAfterWrite (v st : Word) : Word :=
  let err := statusErr st &&& ~~~(statusErr v)
  if err = 0#3 then setField (setField st 8 err) 16 0#4 else setField st 8 err

end Sys2Proof.Machine
end

