-- ==== Sys2Proof/Machine/Ops.lean ====
section
/-! DEFINITION. The named operations over the frame buffer and the registers: byte read and write, big-endian reads and
writes of several bytes (00_scope.md R10), raising an error (60_exceptions.md R152) and its clearing by the host
(10_state.md R31), and reset (70_reset_and_hazards.md R170). -/

namespace Sys2Proof.Machine

/-- `FB[a]` where `written[a]` is true, none where it is false (10_state.md R41, 70_reset_and_hazards.md R174). -/
def Memory.read (m : Memory) (a : Nat) : Option Byte :=
  match m with
  | [] => none
  | (b, v) :: rest => if b = a then some v else Memory.read rest a

/-- `written[a]` (10_state.md R41). -/
def Memory.written (m : Memory) (a : Nat) : Bool := (m.read a).isSome

/-- `FB[a] <- v; written[a] <- true` (20_memory.md R55). -/
def Memory.write (m : Memory) (a : Nat) (v : Byte) : Memory :=
  match m with
  | [] => [(a, v)]
  | (b, w) :: rest =>
    if a < b then (a, v) :: (b, w) :: rest
    else if a = b then (a, v) :: rest
    else (b, w) :: Memory.write rest a v

/-- The bytes `FB[a], …, FB[a+n-1]` in that order, or the first offset among them that is not written
(70_reset_and_hazards.md R174). -/
def loadBytes (m : Memory) (a : Nat) : Nat → Except Nat (List Byte)
  | 0 => .ok []
  | n + 1 =>
    match m.read a with
    | none => .error a
    | some b =>
      match loadBytes m (a + 1) n with
      | .error i => .error i
      | .ok bs => .ok (b :: bs)

/-- Write bytes at `a`, `a+1`, … in that order. -/
def storeBytes (m : Memory) (a : Nat) : List Byte → Memory
  | [] => m
  | b :: bs => storeBytes (m.write a b) (a + 1) bs

/-- The number bytes spell, the first one most significant (00_scope.md R10, 20_memory.md R58). -/
def bigEndianValue (bs : List Byte) : Nat := bs.foldl (fun acc b => acc * 256 + b.toNat) 0

/-- `MemRead(a, n)`: the n-byte big-endian value at `a` (00_scope.md R10), or the first offset not written. -/
def memRead (m : Memory) (a n : Nat) : Except Nat (BitVec (8 * n)) :=
  match loadBytes m a n with
  | .error i => .error i
  | .ok bs => .ok (BitVec.ofNat (8 * n) (bigEndianValue bs))

/-- Byte `j` of an n-byte value, byte 0 the most significant: `v[8*(n-1-j)+7 : 8*(n-1-j)]` (00_scope.md R10). -/
def byteOf {k : Nat} (v : BitVec k) (n j : Nat) : Byte := v.extractLsb' (8 * (n - 1 - j)) 8

/-- `MemWrite(a, n, v)`: byte j of `v` to `FB[a+j]` (00_scope.md R10), each marked written (10_state.md R41). -/
def memWrite {k : Nat} (m : Memory) (a n : Nat) (v : BitVec k) : Memory :=
  storeBytes m a ((List.range n).map (byteOf v n))

/-- The first offset of a list that is not written, if any (the checks of 40_checksum.md R106). -/
def firstUnwritten (m : Memory) : List Nat → Option Nat
  | [] => none
  | a :: rest => if m.written a then firstUnwritten m rest else some a

/-- Raising an error (60_exceptions.md R152): the engine's whole response to a command that cannot be executed. Only
`STATUS` changes, nothing is saved, no control is transferred and the next command is accepted (R150, R156). -/
def raiseError (k : ErrorCode) (s : State) : State :=
  { s with status := statusAfterError k s.status }

/-- The host's write of `STATUS`, the only way back from an error: ones clear sticky bits (10_state.md R31,
60_exceptions.md R156). -/
def writeStatus (v : Word) (s : State) : State :=
  { s with status := statusAfterWrite v s.status }

/-- Record a checksum computation with folded sum `sc.1` and checksum `sc.2` (40_checksum.md R104, R106):
`SUM`, `RESULT` and `STATUS.ZERO`. -/
def recordChecksum (sc : Half × Half) (s : State) : State :=
  { s with sum := sc.1, result := sc.2, status := statusAfterChecksum sc.2 s.status }

/-- Reset (70_reset_and_hazards.md R170): the state after reset of the same engine; inputs still to come stay. The
list of values read starts anew, since a run starts at reset (R177; log entries 6, 7). -/
def resetMachine (s : State) : State :=
  { State.resetWith s.frameCap with inputs := s.inputs }

/-- Note the value a host read returned (70_reset_and_hazards.md R177). -/
def observe (v : ReadValue) (s : State) : State :=
  { s with observed := s.observed ++ [v] }

end Sys2Proof.Machine
end

