-- ==== Sys2Proof/Machine/Operands.lean ====
section
/-! DEFINITION. Every operand of a command (30_encoding.md R74): the checksum range, the patch value and mask, and the
field-layout table (R76). -/

namespace Sys2Proof.Machine

/-- `OFF + LEN` in 17 bits, so that it cannot wrap (40_checksum.md R104). -/
def rangeEnd (s : State) : BitVec 17 := s.off.setWidth 17 + s.len.setWidth 17

/-- `PVAL`, the 48-bit patch value (10_state.md R36). -/
def patchValue (s : State) : Wide := s.pvalHi ++ s.pvalLo

/-- `PMSK`, the 48-bit patch mask (10_state.md R37). -/
def patchMask (s : State) : Wide := s.pmskHi ++ s.pmskLo

/-- One row of the field-layout table: where a header field lies in `FB` and its width in bytes
(30_encoding.md R76). -/
structure HeaderField where
  offset : Nat
  width : Nat
  deriving DecidableEq, Repr

/-- The field-layout table, in the order of SEL (30_encoding.md R76): Ethernet, IPv4, UDP. -/
def layout : List HeaderField :=
  -- ETH_DST, ETH_SRC, ETH_TYPE
  [⟨0, 6⟩, ⟨6, 6⟩, ⟨12, 2⟩] ++
  -- IP_VIHL, IP_TOS, IP_TOTLEN, IP_ID, IP_FLAGFRAG, IP_TTL, IP_PROTO, IP_CSUM, IP_SRC, IP_DST
  [⟨14, 1⟩, ⟨15, 1⟩, ⟨16, 2⟩, ⟨18, 2⟩, ⟨20, 2⟩, ⟨22, 1⟩, ⟨23, 1⟩, ⟨24, 2⟩, ⟨26, 4⟩, ⟨30, 4⟩] ++
  -- UDP_SPORT, UDP_DPORT, UDP_LEN, UDP_CSUM
  [⟨34, 2⟩, ⟨36, 2⟩, ⟨38, 2⟩, ⟨40, 2⟩]

/-- The field a selector names; none for the reserved selectors 17 to 31 (30_encoding.md R75). -/
def fieldOf (sel : BitVec 5) : Option HeaderField := layout[sel.toNat]?

/-- The offset of the IPv4 header (20_memory.md R57). -/
abbrev ipv4Offset : Nat := 14

/-- The size of the IPv4 header, always 20 bytes (20_memory.md R57, decision D31). -/
abbrev ipv4Size : Nat := 20

/-- The offset of the IPv4 checksum field, SEL 10 (30_encoding.md R76, 40_checksum.md R105). -/
abbrev checksumOffset : Nat := 24

/-- The offset of the IPv4 total-length field, SEL 5 (30_encoding.md R76, 42_control.md R141). -/
abbrev totalLengthOffset : Nat := 16

/-- The bytes REPAIR reads, in the order it checks them: 14 to 33 except 24 and 25 (40_checksum.md R106). -/
def repairInputs : List Nat := List.range' 14 10 ++ List.range' 26 8

end Sys2Proof.Machine
end

