-- ==== Sys2Proof/Machine/Control.lean ====
section
/-! DEFINITION. The control and send-length commands NOP (42_control.md R140) and TXLEN (R141). -/

namespace Sys2Proof.Machine

/-- NOP (42_control.md R140): no register, flag or byte changes. -/
def execNop (s : State) : Host.Outcome State Fault Refusal := .next s

/-- The send length in 17 bits, so that it cannot wrap: IPv4 total length plus the 14-byte Ethernet header
(42_control.md R141). -/
def sendLength (totalLength : Half) : BitVec 17 := totalLength.setWidth 17 + 14#17

/-- TXLEN (42_control.md R141): the written check comes before the Range check (60_exceptions.md R153). -/
def execTxlen (s : State) : Host.Outcome State Fault Refusal :=
  match memRead s.fb totalLengthOffset 2 with
  | .error i => .fault (.uninitRead i)
  | .ok tl =>
    if (sendLength tl).toNat ≤ s.frameCap then
      .next { s with txlen := (sendLength tl).extractLsb' 0 16 }
    else .next (raiseError .range s)

end Sys2Proof.Machine
end

