-- ==== Sys2Proof/Machine/Checksum.lean ====
section
/-! DEFINITION. The checksum function (40_checksum.md R100 to R103) and the commands CSUM (R104) and REPAIR (R105,
R106). -/

namespace Sys2Proof.Machine

/-- The 16-bit big-endian words of a byte range; an odd last byte is the high byte of a word padded with zero
(40_checksum.md R100). -/
def checksumWords : List Byte → List Half
  | [] => []
  | [b] => [b ++ 0#8]
  | hi :: lo :: rest => (hi ++ lo) :: checksumWords rest

/-- Accumulate words in the 32-bit `ACC`, which starts at 0 (40_checksum.md R101, 10_state.md R39). -/
def accumulate (ws : List Half) : Word := ws.foldl (fun acc w => acc + w.setWidth 32) 0#32

/-- One fold step: the bits above bit 15 are added back at bit 0 (40_checksum.md R102). -/
def foldStep (acc : Word) : Word :=
  (acc.extractLsb' 0 16).setWidth 32 + (acc.extractLsb' 16 16).setWidth 32

/-- The fold loop of 40_checksum.md R102, at most `n` rounds. -/
def foldLoop : Nat → Word → Word
  | 0, acc => acc
  | n + 1, acc => if acc.extractLsb' 16 16 = 0#16 then acc else foldLoop n (foldStep acc)

/-- The folded sum of an accumulator (40_checksum.md R102). Two rounds are all the loop ever takes (R110;
`foldLoop_two_high` in Laws proves that it has ended). -/
def fold (acc : Word) : Half := (foldLoop 2 acc).extractLsb' 0 16

/-- `Cksum` of a byte range: the folded sum `s` and the checksum `c`, its complement (40_checksum.md R103). -/
def cksum (bs : List Byte) : Half × Half :=
  let s := fold (accumulate (checksumWords bs))
  (s, ~~~s)

/-- CSUM (40_checksum.md R104): Range first, then the written check (60_exceptions.md R153), then the checksum. -/
def execCsum (s : State) : Host.Outcome State Fault Refusal :=
  if (rangeEnd s).toNat ≤ s.frameCap then
    match loadBytes s.fb s.off.toNat s.len.toNat with
    | .error i => .fault (.uninitRead i)
    | .ok bs => .next (recordChecksum (cksum bs) s)
  else .next (raiseError .range s)

/-- The checksum-repair sequence of 40_checksum.md R106, which REPAIR is and PATCH with R = 1 ends with
(41_patcher.md R122): check, zero the field, sum the header, record, store the checksum (R105). -/
def repairHeader (s : State) : Host.Outcome State Fault Refusal :=
  match firstUnwritten s.fb repairInputs with
  | some i => .fault (.uninitRead i)
  | none =>
    let zeroed := memWrite s.fb checksumOffset 2 0#16
    match loadBytes zeroed ipv4Offset ipv4Size with
    | .error i => .fault (.uninitRead i)
    | .ok bs =>
      .next (recordChecksum (cksum bs) { s with fb := memWrite zeroed checksumOffset 2 (cksum bs).2 })

/-- REPAIR (40_checksum.md R106). -/
def execRepair (s : State) : Host.Outcome State Fault Refusal := repairHeader s

end Sys2Proof.Machine
end

