-- ==== Sys2Proof/Machine/Patch.lean ====
section
/-! DEFINITION. The field patch command PATCH (41_patcher.md R120 to R122). -/

namespace Sys2Proof.Machine

/-- The merge of one byte: mask bits 1 take the patch value, mask bits 0 keep the old byte (41_patcher.md R121). -/
def mergeByte (old vb mb : Byte) : Byte := (old &&& ~~~mb) ||| (vb &&& mb)

/-- Patch the byte at `a` (41_patcher.md R121): a full mask writes without reading, a zero mask leaves byte and mark
alone, any other mask reads the old byte, which must be written. -/
def patchByte (m : Memory) (a : Nat) (vb mb : Byte) : Except Nat Memory :=
  if mb = 0xFF#8 then .ok (m.write a vb)
  else if mb = 0x00#8 then .ok m
  else
    match m.read a with
    | none => .error a
    | some old => .ok (m.write a (mergeByte old vb mb))

/-- Patch bytes `j` of the list, each by its byte of value and mask (the loop of 41_patcher.md R121). -/
def patchBytes (f : HeaderField) (v msk : Wide) : List Nat → Memory → Except Nat Memory
  | [], m => .ok m
  | j :: js, m =>
    match patchByte m (f.offset + j) (byteOf v f.width j) (byteOf msk f.width j) with
    | .error i => .error i
    | .ok m' => patchBytes f v msk js m'

/-- The masked write of a whole field, most significant byte first (41_patcher.md R121). -/
def patchField (f : HeaderField) (v msk : Wide) (m : Memory) : Except Nat Memory :=
  patchBytes f v msk (List.range f.width) m

/-- PATCH (41_patcher.md R121, R122). A reserved selector raises ReservedField without effect (30_encoding.md R75);
the decoder lets none through. -/
def execPatch (sel : BitVec 5) (r : Bool) (s : State) : Host.Outcome State Fault Refusal :=
  match fieldOf sel with
  | none => .next (raiseError .reservedField s)
  | some f =>
    match patchField f (patchValue s) (patchMask s) s.fb with
    | .error i => .fault (.uninitRead i)
    | .ok m => if r then repairHeader { s with fb := m } else .next { s with fb := m }

end Sys2Proof.Machine
end

