-- ==== Sys2Proof/Machine/Dispatch.lean ====
section
/-! DEFINITION. One arm for each command of the opcode map (30_encoding.md R72), each a call of its meaning. -/

namespace Sys2Proof.Machine

/-- Execute a decoded command (30_encoding.md R73). -/
def exec (i : Instr) (s : State) : Host.Outcome State Fault Refusal :=
  match i with
  | .nop => Sys2Proof.Machine.execNop s
  | .csum => Sys2Proof.Machine.execCsum s
  | .repair => Sys2Proof.Machine.execRepair s
  | .patch sel r => Sys2Proof.Machine.execPatch sel r s
  | .txlen => Sys2Proof.Machine.execTxlen s

end Sys2Proof.Machine
end

