-- ==== Sys2Proof/Machine/Access.lean ====
section
/-! DEFINITION. What one input does: the host's register and FB-window accesses (20_memory.md R50 to R56), the command
a write to `CMD` runs (10_state.md R26), and reset. -/

namespace Sys2Proof.Machine

/-- The constant the register `ID` reads, ASCII "IP4C" (10_state.md R24). -/
def idValue : Word := 0x49503443#32

/-- The host address of `CMD` (20_memory.md R52). -/
def cmdAddr : HostAddr := 0x008#17

/-- The host map of the registers (20_memory.md R52); none at an unmapped address. -/
def regAt (a : HostAddr) : Option Reg :=
  match a.toNat with
  | 0x000 => some .id
  | 0x004 => some .cap
  | 0x008 => some .cmd
  | 0x00C => some .status
  | 0x010 => some .off
  | 0x014 => some .len
  | 0x018 => some .result
  | 0x01C => some .sum
  | 0x020 => some .pvalLo
  | 0x024 => some .pvalHi
  | 0x028 => some .pmskLo
  | 0x02C => some .pmskHi
  | 0x030 => some .txlen
  | _ => none

/-- The value of a register as a host read sees it: narrow registers zero-extended, `CMD` 0 (10_state.md R22). -/
def readReg (r : Reg) (s : State) : Word :=
  match r with
  | .id => idValue
  | .cap => BitVec.ofNat 32 s.frameCap
  | .cmd => 0#32
  | .status => s.status
  | .off => s.off.setWidth 32
  | .len => s.len.setWidth 32
  | .result => s.result.setWidth 32
  | .sum => s.sum.setWidth 32
  | .pvalLo => s.pvalLo
  | .pvalHi => s.pvalHi.setWidth 32
  | .pmskLo => s.pmskLo
  | .pmskHi => s.pmskHi.setWidth 32
  | .txlen => s.txlen.setWidth 32

/-- Execute the command word `w` (10_state.md R26): the decoded command, or the error its decoding raises
(30_encoding.md R73). -/
def runCommand (w : Word) (s : State) : Host.Outcome State Fault Refusal :=
  match decode w with
  | .ok i => exec i s
  | .error k => .next (raiseError k s)

/-- A host write of `v` to a register (10_state.md R22, R23, R26, R31 to R37): narrow registers take the low bits,
read-only registers ignore the write, `STATUS` clears sticky bits, `CMD` runs a command. -/
def writeReg (r : Reg) (v : Word) (s : State) : Host.Outcome State Fault Refusal :=
  match r with
  | .id => .next s
  | .cap => .next s
  | .cmd => runCommand v s
  | .status => .next (writeStatus v s)
  | .off => .next { s with off := v.extractLsb' 0 16 }
  | .len => .next { s with len := v.extractLsb' 0 16 }
  | .result => .next s
  | .sum => .next s
  | .pvalLo => .next { s with pvalLo := v }
  | .pvalHi => .next { s with pvalHi := v.extractLsb' 0 16 }
  | .pmskLo => .next { s with pmskLo := v }
  | .pmskHi => .next { s with pmskHi := v.extractLsb' 0 16 }
  | .txlen => .next s

/-- The first host address of the FB window (20_memory.md R53). -/
abbrev windowBase : Nat := 0x1000

/-- A 32-bit access meets the contract: an aligned address of the register block (20_memory.md R54). -/
def regContract (a : HostAddr) : Bool := decide (a.toNat < windowBase) && decide (a.toNat % 4 = 0)

/-- An 8-bit access meets the contract: an address of the FB window (20_memory.md R55). -/
def windowContract (a : HostAddr) : Bool := decide (windowBase ≤ a.toNat)

/-- The FB offset of a window address, if it is below the capacity `cap` (20_memory.md R53). -/
def windowOffset (a : HostAddr) (cap : Nat) : Option Nat :=
  if a.toNat < windowBase + cap then some (a.toNat - windowBase) else none

/-- `RegRead(a)` (20_memory.md R54, R56). -/
def hostRegRead (a : HostAddr) (s : State) : Host.Outcome State Fault Refusal :=
  if regContract a then
    match regAt a with
    | some r => .next (observe (.word (readReg r s)) s)
    | none => .next (observe (.word 0#32) s)
  else .refused (.outsideContract a .bits32)

/-- `RegWrite(a, v)` (20_memory.md R54, R56). -/
def hostRegWrite (a : HostAddr) (v : Word) (s : State) : Host.Outcome State Fault Refusal :=
  if regContract a then
    match regAt a with
    | some r => writeReg r v s
    | none => .next s
  else .refused (.outsideContract a .bits32)

/-- `FbRead(a)` (20_memory.md R55, R56, 70_reset_and_hazards.md R174). -/
def hostFbRead (a : HostAddr) (s : State) : Host.Outcome State Fault Refusal :=
  if windowContract a then
    match windowOffset a s.frameCap with
    | none => .next (observe (.byte 0#8) s)
    | some i =>
      match s.fb.read i with
      | none => .fault (.uninitRead i)
      | some b => .next (observe (.byte b) s)
  else .refused (.outsideContract a .bits8)

/-- `FbWrite(a, b)` (20_memory.md R55, R56). -/
def hostFbWrite (a : HostAddr) (b : Byte) (s : State) : Host.Outcome State Fault Refusal :=
  if windowContract a then
    match windowOffset a s.frameCap with
    | none => .next s
    | some i => .next { s with fb := s.fb.write i b }
  else .refused (.outsideContract a .bits8)

/-- What one input does to the engine (20_memory.md R51, 70_reset_and_hazards.md R171). -/
def perform (e : Input) (s : State) : Host.Outcome State Fault Refusal :=
  match e with
  | .regRead a => hostRegRead a s
  | .regWrite a v => hostRegWrite a v s
  | .fbRead a => hostFbRead a s
  | .fbWrite a b => hostFbWrite a b s
  | .reset => .next (resetMachine s)

end Sys2Proof.Machine
end

