-- ==== Sys2Proof/Machine/Step.lean ====
section
/-! DEFINITION. One step: the oldest input, performed whole (00_scope.md R6). -/

namespace Sys2Proof.Machine

/-- One step (00_scope.md R5, R6; 70_reset_and_hazards.md R177): the oldest pending input is performed. With none
pending the engine is idle and holds all state unchanged (60_exceptions.md R162; log entry 5). -/
def step (s : State) : Host.Outcome State Fault Refusal :=
  match s.inputs with
  | [] => .next s
  | e :: rest => perform e { s with inputs := rest }

/-- The state in which the host's next access writes this command word to `CMD`. The engine fetches nothing
(10_state.md R21): a command comes to run when the host writes it (log entry 4). -/
def State.withFetchWord (s : State) (nbits w : Nat) : State :=
  { s with inputs := .regWrite cmdAddr (tableWord nbits w) :: s.inputs }

end Sys2Proof.Machine
end

