-- ==== Sys2Proof/Machine/HostProgram.lean ====
section
/-! DEFINITION. The assembler syntax (30_encoding.md R80) and the pseudo-commands (R81) of host programs, each as the
list of host operations it stands for. -/

namespace Sys2Proof.Machine.HostProgram

/-- The offset of a register by name (20_memory.md R52). -/
def addrOf : Reg → HostAddr
  | .id => 0x000#17
  | .cap => 0x004#17
  | .cmd => 0x008#17
  | .status => 0x00C#17
  | .off => 0x010#17
  | .len => 0x014#17
  | .result => 0x018#17
  | .sum => 0x01C#17
  | .pvalLo => 0x020#17
  | .pvalHi => 0x024#17
  | .pmskLo => 0x028#17
  | .pmskHi => 0x02C#17
  | .txlen => 0x030#17

/-- `WR <REG>, v` (30_encoding.md R80). -/
def wr (r : Reg) (v : Word) : List Input := [.regWrite (addrOf r) v]

/-- `RD <REG>` (30_encoding.md R80). -/
def rd (r : Reg) : List Input := [.regRead (addrOf r)]

/-- `FBW i, b, b, …` (30_encoding.md R80). -/
def fbw (i : Nat) : List Byte → List Input
  | [] => []
  | b :: bs => .fbWrite (BitVec.ofNat 17 (windowBase + i)) b :: fbw (i + 1) bs

/-- `FBR i` (30_encoding.md R80). -/
def fbr (i : Nat) : List Input := [.fbRead (BitVec.ofNat 17 (windowBase + i))]

/-- A command mnemonic: `WR CMD` of its word (30_encoding.md R80). -/
def command (i : Instr) : List Input := wr .cmd (encode i)

/-- `CHECKSUM off, len` (30_encoding.md R81). -/
def checksum (off len : Word) : List Input := wr .off off ++ wr .len len ++ command .csum

/-- `VERIFY` (30_encoding.md R81); then `STATUS.ZERO` = 1 means the header checksum is correct. -/
def verify : List Input := wr .off 14#32 ++ wr .len 20#32 ++ command .csum

/-- `SETSRC a32` (30_encoding.md R81): IP_SRC is selector 11 (R76). -/
def setsrc (a32 : Word) : List Input :=
  wr .pvalLo a32 ++ wr .pmskLo 0xFFFFFFFF#32 ++ command (.patch 11#5 true)

/-- `SETFIELD name, v, m`, the field by its selector (30_encoding.md R81). -/
def setfield (sel : BitVec 5) (v m : Wide) : List Input :=
  wr .pvalLo (v.extractLsb' 0 32) ++ wr .pvalHi ((v.extractLsb' 32 16).setWidth 32) ++
  wr .pmskLo (m.extractLsb' 0 32) ++ wr .pmskHi ((m.extractLsb' 32 16).setWidth 32) ++
  command (.patch sel true)

/-- `CLRERR` (30_encoding.md R81). -/
def clrerr : List Input := wr .status 0x00000700#32

end Sys2Proof.Machine.HostProgram
end

