-- ==== Sys2Proof/Safety.lean ====
section
/-! DEFINITION. What a safe run is and the terms claims are stated in: the invariant of the reachable states, which
bytes are readable, and the checksum as exact integer arithmetic (40_checksum.md R109, R110). -/

namespace Sys2Proof.Machine

/-- The invariant of the engine's states: what the spec says holds at reset and after every access. -/
structure State.Inv (s : State) : Prop where
  /-- `FRAME_CAP` is at least 42 (00_scope.md R7). -/
  capMin : 42 ≤ s.frameCap
  /-- `FRAME_CAP` is at most 65535 (00_scope.md R7). -/
  capMax : s.frameCap ≤ 65535
  /-- `FB` is in canonical form (log entry 2). -/
  fbWf : s.fb.wf
  /-- Every written byte lies inside `FB` (10_state.md R40). -/
  fbInside : ∀ i, s.fb.written i = true → i < s.frameCap
  /-- Reserved bits of `STATUS` read 0 (10_state.md R27). -/
  statusReserved : s.status &&& ~~~0x000F0701#32 = 0#32
  /-- `ECODE` is 0 exactly when no error bit is set (10_state.md R27, R30). -/
  ecodeZero : statusErr s.status = 0#3 ↔ statusEcode s.status = 0#4
  /-- `ECODE` is 0, 1, 2 or 3 (10_state.md R30). -/
  ecodeMax : (statusEcode s.status).toNat ≤ 3
  /-- `SUM` is the complement of `RESULT` and ZERO tells whether `RESULT` is 0, or no checksum was computed since
  reset (10_state.md R28, R35). -/
  checksum : (s.sum = ~~~s.result ∧ (statusZero s.status = true ↔ s.result = 0#16)) ∨
    (s.sum = 0#16 ∧ s.result = 0#16 ∧ statusZero s.status = false)
  /-- `TXLEN` never exceeds the capacity, and holds 0 or a length of at least the Ethernet header
  (42_control.md R141). -/
  txlen : s.txlen = 0#16 ∨ (14 ≤ s.txlen.toNat ∧ s.txlen.toNat ≤ s.frameCap)

/-- A step is safe in `s` if the machine does not stop there. -/
def State.Safe (s : State) : Prop := ∃ t, step s = .next t

/-- Every byte of `FB` that REPAIR reads is written (40_checksum.md R106, 70_reset_and_hazards.md R175). -/
def State.HeaderLoaded (s : State) : Prop := ∀ i, 14 ≤ i → i < 34 → i ≠ 24 → i ≠ 25 → s.fb.written i = true

/-- The bytes `bs` stand in the buffer from offset `a` on, all written. -/
def BytesAt (m : Memory) (a : Nat) (bs : List Byte) : Prop := ∀ j (h : j < bs.length), m.read (a + j) = some bs[j]

/-- The exact integer sum of the 16-bit words of a byte range, an odd last byte counting as a high byte
(40_checksum.md R100, R109). -/
def wordSum : List Byte → Nat
  | [] => 0
  | [b] => 256 * b.toNat
  | hi :: lo :: rest => 256 * hi.toNat + lo.toNat + wordSum rest

/-- The folded value of an exact sum: 0 for 0, else the value in 1 to 0xFFFF congruent to it modulo 0xFFFF
(40_checksum.md R110). -/
def foldSum (x : Nat) : Nat := if x = 0 then 0 else (x - 1) % 65535 + 1

/-- The folded sum of a byte range as a register value (40_checksum.md R102, R110). -/
def foldedSumOf (bs : List Byte) : Half := BitVec.ofNat 16 (foldSum (wordSum bs))

/-- The checksum of a byte range (40_checksum.md R103). -/
def checksumOf (bs : List Byte) : Half := ~~~(foldedSumOf bs)

/-- A mask byte that makes PATCH read the old byte: neither 0xFF nor 0x00 (41_patcher.md R121). -/
def PartialMask (mb : Byte) : Prop := mb ≠ 0xFF#8 ∧ mb ≠ 0x00#8

/-- What a byte of a patched field holds afterwards (41_patcher.md R121): the patch byte under a full mask, the merge of
both under a partial one, the old byte (or still no value) under a zero one. -/
def patchedByte (old : Option Byte) (vb mb : Byte) : Option Byte :=
  if mb = 0xFF#8 then some vb
  else if mb = 0x00#8 then old
  else old.map fun b => (b &&& ~~~mb) ||| (vb &&& mb)

/-- `STATUS` with ZERO set to `z` and every other bit kept (10_state.md R28). -/
def withZeroFlag (z : Bool) (st : Word) : Word := (st &&& 0xFFFFFFFE#32) ||| (if z then 1#32 else 0#32)

/-- `STATUS` with bit `7 + k` set, `ECODE` equal to `k`, and every other bit kept (60_exceptions.md R152). -/
def withError (k : Nat) (st : Word) : Word :=
  (st &&& 0xFFF0FFFF#32) ||| (1#32 <<< (7 + k)) ||| (BitVec.ofNat 32 k <<< 16)

/-- The 38 legal command words (30_encoding.md R78): NOP, CSUM, REPAIR, TXLEN, and PATCH with each of 17 selectors and
both values of R. -/
def legalWords : List Word :=
  [0x00000000#32, 0x10000000#32, 0x20000000#32, 0x40000000#32] ++
  (List.range 34).map fun k => BitVec.ofNat 32 (0x30000000 + k * 0x400000)

/-- A 16-bit adder with end-around carry (40_checksum.md R113). -/
def endAroundAdd (r w : Nat) : Nat := if r + w < 65536 then r + w else r + w - 65535

/-- The sum an eager end-around-carry adder holds after all words, folding at each word (40_checksum.md R113). -/
def eagerSum (ws : List Half) : Nat := ws.foldl (fun r w => endAroundAdd r w.toNat) 0

/-- Byte `j` of the patch value of a field `width` bytes wide, by integer arithmetic on the 48-bit number `PVAL`: byte 0
is the most significant (41_patcher.md R121). -/
def patchValueByte (s : State) (width j : Nat) : Byte :=
  BitVec.ofNat 8 ((s.pvalHi.toNat * 2 ^ 32 + s.pvalLo.toNat) / 256 ^ (width - 1 - j) % 256)

/-- Byte `j` of the patch mask, likewise (41_patcher.md R121). -/
def patchMaskByte (s : State) (width j : Nat) : Byte :=
  BitVec.ofNat 8 ((s.pmskHi.toNat * 2 ^ 32 + s.pmskLo.toNat) / 256 ^ (width - 1 - j) % 256)

/-- The bytes of a field that PATCH reads are written (41_patcher.md R121, 70_reset_and_hazards.md R175). -/
def PatchReady (s : State) (f : HeaderField) : Prop :=
  ∀ j, j < f.width → PartialMask (patchMaskByte s f.width j) → s.fb.written (f.offset + j) = true

/-- What a byte of `FB` holds after PATCH with R = 0 on the field `f` (41_patcher.md R121): a byte of the field is
patched, any other byte is as before. -/
def afterPatch (s : State) (f : HeaderField) (x : Nat) : Option Byte :=
  if f.offset ≤ x ∧ x < f.offset + f.width then
    patchedByte (s.fb.read x) (patchValueByte s f.width (x - f.offset)) (patchMaskByte s f.width (x - f.offset))
  else s.fb.read x

end Sys2Proof.Machine
end

