-- ==== Sys2Proof/Certificates/Slice0/Obligations.lean ====
section
/-! DEFINITION. The statements for the provers, from the numbered rules of the spec. -/

open Sys2Proof Sys2Proof.Machine

/-! ### Encoding and decoding -/

/-- Decoding and encoding are inverse: a word decodes to a command exactly when it is the encoding of that
well-formed command (30_encoding.md R71 to R73). -/
def Obligations.DecodeAcceptsExactlyTheEncodings : Prop :=
  ∀ (w : Word) (i : Instr), decode w = .ok i ↔ i.wf = true ∧ encode i = w

/-- The decoder's errors in the order of 30_encoding.md R73, in integer arithmetic on the word: an opcode of at least 5
is IllegalOpcode; otherwise a nonzero reserved field, or a selector of at least 17, is ReservedField. -/
def Obligations.DecodeErrorsInOrder : Prop :=
  ∀ w : Word,
    (decode w = .error .illegalOpcode ↔ 5 ≤ w.toNat / 2 ^ 28) ∧
    (decode w = .error .reservedField ↔
      w.toNat / 2 ^ 28 < 5 ∧
      ((w.toNat / 2 ^ 28 = 3 ∧ (w.toNat % 2 ^ 22 ≠ 0 ∨ 17 ≤ w.toNat / 2 ^ 23 % 2 ^ 5)) ∨
       (w.toNat / 2 ^ 28 ≠ 3 ∧ w.toNat % 2 ^ 28 ≠ 0))) ∧
    decode w ≠ .error .range

/-- There are 38 legal command words, and these are they (30_encoding.md R78). -/
def Obligations.ThirtyEightLegalWords : Prop :=
  legalWords.length = 38 ∧ legalWords.Nodup ∧ ∀ w : Word, (∃ i, decode w = .ok i) ↔ w ∈ legalWords

/-- Words written out from the spec decode as it says (95_test_vectors.md section 4.1; 30_encoding.md R80). -/
def Obligations.SpecWordsDecodeAsWritten : Prop :=
  decode 0x00000000#32 = .ok .nop ∧
  decode 0x10000000#32 = .ok .csum ∧
  decode 0x20000000#32 = .ok .repair ∧
  decode 0x31800000#32 = .ok (.patch 3#5 false) ∧
  decode 0x35C00000#32 = .ok (.patch 11#5 true) ∧
  decode 0x38400000#32 = .ok (.patch 16#5 true) ∧
  decode 0x40000000#32 = .ok .txlen ∧
  decode 0x38800000#32 = .error .reservedField ∧
  decode 0x3000FFFF#32 = .error .reservedField ∧
  decode 0x5FFFFFFF#32 = .error .illegalOpcode

/-- Selector k names row k of the layout table (30_encoding.md R76), and selectors 17 to 31 name no field (R75). The
widths of selectors 13 to 15, and with them the offsets of 14 and 15, are presumed: the spec marks them as general
knowledge (93_implementation_defined.md GK1; log entry 16, unsafe). -/
def Obligations.LayoutTableOffsetsAndWidths : Prop :=
  ((List.range 17).map fun k => (fieldOf (BitVec.ofNat 5 k)).map fun f => (f.offset, f.width)) =
    [some (0, 6), some (6, 6), some (12, 2), some (14, 1), some (15, 1), some (16, 2), some (18, 2), some (20, 2),
     some (22, 1), some (23, 1), some (24, 2), some (26, 4), some (30, 4), some (34, 2), some (36, 2), some (38, 2),
     some (40, 2)] ∧
  ∀ sel : BitVec 5, 17 ≤ sel.toNat → fieldOf sel = none

/-! ### Steps -/

/-- When the host's next access writes to `CMD` a word that decodes to a command, the step is that command's `exec`, in
the state with that access taken from the inputs (10_state.md R26, 00_scope.md R6). -/
def Obligations.StepRunsTheDecodedCommand : Prop :=
  ∀ (s : State) (w : Word) (i : Instr) (rest : List Input),
    s.inputs = .regWrite 0x008#17 w :: rest → decode w = .ok i → step s = exec i { s with inputs := rest }

/-- Placing the encoding of a well-formed command as the next command word makes the next step run exactly it. -/
def Obligations.PlacedWordRunsItsCommand : Prop :=
  ∀ (s : State) (i : Instr), i.wf = true → step (s.withFetchWord 32 (encode i).toNat) = exec i s

/-- A command word with an illegal opcode sets ERR_ILL and ECODE 1 and has no other effect, whatever its other bits
(30_encoding.md R77). -/
def Obligations.IllegalOpcodeRaisesCodeOne : Prop :=
  ∀ (s : State) (w : Word) (rest : List Input),
    s.inputs = .regWrite 0x008#17 w :: rest → 5 ≤ w.toNat / 2 ^ 28 →
    step s = .next { s with inputs := rest, status := withError 1 s.status }

/-- A legal opcode with a nonzero reserved field, or a PATCH with a reserved selector, sets ERR_RSV and ECODE 2 and has
no other effect (30_encoding.md R75, R78). -/
def Obligations.ReservedFieldRaisesCodeTwo : Prop :=
  ∀ (s : State) (w : Word) (rest : List Input),
    s.inputs = .regWrite 0x008#17 w :: rest → w.toNat / 2 ^ 28 < 5 →
    ((w.toNat / 2 ^ 28 = 3 ∧ (w.toNat % 2 ^ 22 ≠ 0 ∨ 17 ≤ w.toNat / 2 ^ 23 % 2 ^ 5)) ∨
     (w.toNat / 2 ^ 28 ≠ 3 ∧ w.toNat % 2 ^ 28 ≠ 0)) →
    step s = .next { s with inputs := rest, status := withError 2 s.status }

/-- With no input pending the engine is idle and holds its whole state (60_exceptions.md R162). -/
def Obligations.IdleEngineHoldsItsState : Prop :=
  ∀ s : State, s.inputs = [] → step s = .next s

/-- Whatever word the host writes to `CMD`, on a fully written buffer the command completes and the next access is
accepted: the engine does not stop on an error (60_exceptions.md R150, 30_encoding.md R73). -/
def Obligations.EveryCommandWordCompletesOnAWrittenBuffer : Prop :=
  ∀ (s : State) (w : Word) (rest : List Input),
    42 ≤ s.frameCap → (∀ x, x < s.frameCap → s.fb.written x = true) →
    s.inputs = .regWrite 0x008#17 w :: rest →
    ∃ t, step s = .next t ∧ t.inputs = rest

/-! ### NOP -/

/-- NOP (42_control.md R140): no register, flag or byte changes, the error bits, `ECODE` and ZERO included; its word is
0x00000000 exactly, and any other word with opcode 0 raises ReservedField and has no other effect. -/
def Obligations.NopChangesNothing : Prop :=
  (∀ s : State, exec .nop s = .next s) ∧ (∀ w : Word, decode w = .ok .nop ↔ w = 0x00000000#32) ∧
  ∀ (s : State) (w : Word), w ≠ 0#32 → w.toNat < 2 ^ 28 →
    runCommand w s = .next { s with status := withError 2 s.status }

/-! ### CSUM -/

/-- CSUM over written bytes in range (40_checksum.md R100 to R104): `SUM` is the folded exact sum of the words, `RESULT`
its complement, ZERO tells whether `RESULT` is 0; nothing else changes, `FB` included. -/
def Obligations.CsumRecordsTheChecksum : Prop :=
  ∀ (s : State) (bs : List Byte),
    s.off.toNat + s.len.toNat ≤ s.frameCap → bs.length = s.len.toNat → BytesAt s.fb s.off.toNat bs →
    exec .csum s = .next { s with
      sum := foldedSumOf bs
      result := checksumOf bs
      status := withZeroFlag (decide (checksumOf bs = 0#16)) s.status }

/-- CSUM whose range exceeds `FRAME_CAP` sets ERR_RANGE and ECODE 3 and changes nothing else, written bytes or not
(40_checksum.md R104, 60_exceptions.md R153). -/
def Obligations.CsumOutOfRangeRaisesCodeThree : Prop :=
  ∀ s : State, s.frameCap < s.off.toNat + s.len.toNat →
    exec .csum s = .next { s with status := withError 3 s.status }

/-- CSUM faults exactly when it is in range and a byte of the range is unwritten, at the first such byte
(40_checksum.md R104, 70_reset_and_hazards.md R174). -/
def Obligations.CsumFaultsExactlyOnUnwrittenBytes : Prop :=
  ∀ (s : State) (e : Fault), exec .csum s = .fault e ↔
    s.off.toNat + s.len.toNat ≤ s.frameCap ∧
    ∃ j, j < s.len.toNat ∧ e = .uninitRead (s.off.toNat + j) ∧ s.fb.written (s.off.toNat + j) = false ∧
      ∀ k, k < j → s.fb.written (s.off.toNat + k) = true

/-- CSUM's result depends only on the bytes of its range and on `OFF` and `LEN` (40_checksum.md R107). -/
def Obligations.CsumDependsOnlyOnItsRange : Prop :=
  ∀ s s' t : State, s'.off = s.off → s'.len = s.len →
    s.off.toNat + s.len.toNat ≤ s.frameCap → s.off.toNat + s.len.toNat ≤ s'.frameCap →
    (∀ x, s.off.toNat ≤ x → x < s.off.toNat + s.len.toNat → s'.fb.read x = s.fb.read x) →
    exec .csum s = .next t →
    exec .csum s' = .next { s' with
      sum := t.sum
      result := t.result
      status := withZeroFlag (statusZero t.status) s'.status }

/-! ### The checksum function -/

/-- The accumulator never overflows: before folding it holds the exact integer sum of the words
(40_checksum.md R109). -/
def Obligations.AccumulatorIsTheExactSum : Prop :=
  ∀ bs : List Byte, bs.length ≤ 65535 →
    (accumulate (checksumWords bs)).toNat = wordSum bs ∧ wordSum bs ≤ 0x7FFF7F01 ∧
    (bs.length % 2 = 0 → wordSum bs ≤ 0x7FFE8001)

/-- Folding gives 0 for 0 and otherwise the one value in 1 to 0xFFFF congruent to the accumulator modulo 0xFFFF
(40_checksum.md R110). -/
def Obligations.FoldIsTheResidueModulo65535 : Prop :=
  ∀ x : Word, (x = 0#32 → fold x = 0#16) ∧
    (x ≠ 0#32 → 1 ≤ (fold x).toNat ∧ (fold x).toNat % 65535 = x.toNat % 65535)

/-- A 16-bit adder that folds at every word, and the words added in any order, give the same folded sum
(40_checksum.md R113). -/
def Obligations.EagerFoldingAndAnyOrderAgree : Prop :=
  ∀ bs : List Byte, bs.length ≤ 65535 →
    eagerSum (checksumWords bs) = (cksum bs).1.toNat ∧
    ∀ ws : List Half, ws.Perm (checksumWords bs) → fold (accumulate ws) = (cksum bs).1

/-! ### REPAIR -/

/-- REPAIR of a header whose bytes other than the checksum field are written (40_checksum.md R105, R106): `SUM`,
`RESULT` and ZERO are those of the header with a zero checksum field, the checksum goes to bytes 24 (high) and 25 (low),
no other byte and no other register changes. -/
def Obligations.RepairStoresTheHeaderChecksum : Prop :=
  ∀ (s : State) (h₁ h₂ : List Byte),
    h₁.length = 10 → h₂.length = 8 → BytesAt s.fb 14 h₁ → BytesAt s.fb 26 h₂ →
    ∃ m : Memory,
      exec .repair s = .next { s with
        fb := m
        sum := foldedSumOf (h₁ ++ [0#8, 0#8] ++ h₂)
        result := checksumOf (h₁ ++ [0#8, 0#8] ++ h₂)
        status := withZeroFlag (decide (checksumOf (h₁ ++ [0#8, 0#8] ++ h₂) = 0#16)) s.status } ∧
      m.read 24 = some ((checksumOf (h₁ ++ [0#8, 0#8] ++ h₂)).extractLsb' 8 8) ∧
      m.read 25 = some ((checksumOf (h₁ ++ [0#8, 0#8] ++ h₂)).extractLsb' 0 8) ∧
      ∀ x, x ≠ 24 → x ≠ 25 → m.read x = s.fb.read x

/-- REPAIR faults exactly when a header byte other than 24 and 25 is unwritten, at the first such byte
(40_checksum.md R106, 70_reset_and_hazards.md R174). -/
def Obligations.RepairFaultsExactlyOnUnwrittenHeader : Prop :=
  ∀ (s : State) (e : Fault), exec .repair s = .fault e ↔
    ∃ i, e = .uninitRead i ∧ 14 ≤ i ∧ i < 34 ∧ i ≠ 24 ∧ i ≠ 25 ∧ s.fb.written i = false ∧
      ∀ k, 14 ≤ k → k < i → k ≠ 24 → k ≠ 25 → s.fb.written k = true

/-- The old contents of bytes 24 and 25, and whether they were written, never affect REPAIR (40_checksum.md R106,
R107). -/
def Obligations.RepairIgnoresTheOldChecksum : Prop :=
  ∀ (s : State) (m : Memory), s.fb.wf → m.wf →
    (∀ x, x ≠ 24 → x ≠ 25 → m.read x = s.fb.read x) →
    exec .repair { s with fb := m } = exec .repair s

/-- REPAIR twice leaves what REPAIR once leaves (40_checksum.md R106). -/
def Obligations.RepairTwiceIsRepairOnce : Prop :=
  ∀ s t : State, s.fb.wf → exec .repair s = .next t → exec .repair t = .next t

/-- The verification identity (40_checksum.md R108): after REPAIR, or after zeroing the field, CSUM and storing
`RESULT` high byte first, a CSUM over the header gives `SUM` 0xFFFF, `RESULT` 0x0000 and ZERO 1. -/
def Obligations.VerificationIdentity : Prop :=
  (∀ s t : State, 42 ≤ s.frameCap → exec .repair s = .next t →
    exec .csum { t with off := 14#16, len := 20#16 } = .next { t with
      off := 14#16
      len := 20#16
      sum := 0xFFFF#16
      result := 0x0000#16
      status := withZeroFlag true t.status }) ∧
  (∀ s t : State, 42 ≤ s.frameCap → s.off = 14#16 → s.len = 20#16 →
    s.fb.read 24 = some 0#8 → s.fb.read 25 = some 0#8 → exec .csum s = .next t →
    exec .csum { t with fb := (t.fb.write 24 (t.result.extractLsb' 8 8)).write 25 (t.result.extractLsb' 0 8) } =
      .next { t with
        fb := (t.fb.write 24 (t.result.extractLsb' 8 8)).write 25 (t.result.extractLsb' 0 8)
        sum := 0xFFFF#16
        result := 0x0000#16
        status := withZeroFlag true t.status })

/-! ### PATCH -/

/-- PATCH with R = 0 (41_patcher.md R121): each byte of the field is patched by its byte of `PVAL` and `PMSK`, every
other byte of `FB` and every register is unchanged. -/
def Obligations.PatchWritesTheMaskedField : Prop :=
  ∀ (s : State) (sel : BitVec 5) (f : HeaderField), fieldOf sel = some f → PatchReady s f →
    ∃ m : Memory, exec (.patch sel false) s = .next { s with fb := m } ∧ ∀ x, m.read x = afterPatch s f x

/-- PATCH with R = 0 faults exactly when a byte with a partial mask is unwritten, at the first such byte
(41_patcher.md R121, 70_reset_and_hazards.md R174). -/
def Obligations.PatchFaultsExactlyOnUnwrittenMaskedBytes : Prop :=
  ∀ (s : State) (sel : BitVec 5) (f : HeaderField) (e : Fault), fieldOf sel = some f →
    (exec (.patch sel false) s = .fault e ↔
      ∃ j, j < f.width ∧ e = .uninitRead (f.offset + j) ∧
        PartialMask (patchMaskByte s f.width j) ∧ s.fb.written (f.offset + j) = false ∧
        ∀ k, k < j → PartialMask (patchMaskByte s f.width k) → s.fb.written (f.offset + k) = true)

/-- The model's choice (log entry 11): executing a PATCH term with a reserved selector, which no word decodes to, raises
ReservedField without effect, whatever R is. For a PATCH word with such a selector 30_encoding.md R75 says so, and
`Obligations.ReservedFieldRaisesCodeTwo` states it of the decoder's answer. -/
def Obligations.PatchReservedSelectorRaisesCodeTwo : Prop :=
  ∀ (s : State) (sel : BitVec 5) (r : Bool), 17 ≤ sel.toNat →
    exec (.patch sel r) s = .next { s with status := withError 2 s.status }

/-- PATCH with R = 1 is PATCH with R = 0 and then REPAIR, in one command, whatever field it names
(41_patcher.md R122); where the field write faults, the whole command does. -/
def Obligations.PatchWithRepairIsPatchThenRepair : Prop :=
  ∀ (s : State) (sel : BitVec 5), sel.toNat < 17 →
    (∀ t, exec (.patch sel false) s = .next t → exec (.patch sel true) s = exec .repair t) ∧
    (∀ e, exec (.patch sel false) s = .fault e → exec (.patch sel true) s = .fault e)

/-- PATCH with R = 1 completes when the bytes it reads are written, the bytes the patch writes in full counting as
written (41_patcher.md R122): the field is patched, then the patched header is repaired. -/
def Obligations.PatchWithRepairCompletes : Prop :=
  ∀ (s : State) (sel : BitVec 5) (f : HeaderField), fieldOf sel = some f → PatchReady s f →
    (∀ x, 14 ≤ x → x < 34 → x ≠ 24 → x ≠ 25 → (afterPatch s f x).isSome) →
    ∃ (m : Memory) (h₁ h₂ : List Byte),
      h₁.length = 10 ∧ h₂.length = 8 ∧
      (∀ j (h : j < h₁.length), afterPatch s f (14 + j) = some h₁[j]) ∧
      (∀ j (h : j < h₂.length), afterPatch s f (26 + j) = some h₂[j]) ∧
      exec (.patch sel true) s = .next { s with
        fb := m
        sum := foldedSumOf (h₁ ++ [0#8, 0#8] ++ h₂)
        result := checksumOf (h₁ ++ [0#8, 0#8] ++ h₂)
        status := withZeroFlag (decide (checksumOf (h₁ ++ [0#8, 0#8] ++ h₂) = 0#16)) s.status } ∧
      m.read 24 = some ((checksumOf (h₁ ++ [0#8, 0#8] ++ h₂)).extractLsb' 8 8) ∧
      m.read 25 = some ((checksumOf (h₁ ++ [0#8, 0#8] ++ h₂)).extractLsb' 0 8) ∧
      ∀ x, x ≠ 24 → x ≠ 25 → m.read x = afterPatch s f x

/-- The mutation-repair invariant (40_checksum.md R111): after PATCH with R = 1 or REPAIR, as long as bytes 14 to 33 are
not written, a CSUM over the header gives ZERO 1. -/
def Obligations.MutationThenRepairVerifies : Prop :=
  ∀ (s t u : State) (i : Instr), (i = .repair ∨ ∃ sel, sel.toNat < 17 ∧ i = .patch sel true) →
    exec i s = .next t →
    (∀ x, 14 ≤ x → x < 34 → u.fb.read x = t.fb.read x) →
    u.off = 14#16 → u.len = 20#16 → 42 ≤ u.frameCap →
    exec .csum u = .next { u with
      sum := 0xFFFF#16
      result := 0x0000#16
      status := withZeroFlag true u.status }

/-- PATCH twice with the same value and mask leaves what PATCH once leaves (41_patcher.md R124). -/
def Obligations.PatchTwiceIsPatchOnce : Prop :=
  ∀ (s t : State) (sel : BitVec 5), sel.toNat < 17 → s.fb.wf →
    exec (.patch sel false) s = .next t → exec (.patch sel false) t = .next t

/-- Two PATCHes of different fields with R = 0 commute (41_patcher.md R124). -/
def Obligations.PatchesOfDifferentFieldsCommute : Prop :=
  ∀ (s t u : State) (sel₁ sel₂ : BitVec 5), sel₁.toNat < 17 → sel₂.toNat < 17 → sel₁ ≠ sel₂ → s.fb.wf →
    exec (.patch sel₁ false) s = .next t → exec (.patch sel₂ false) t = .next u →
    ∃ t', exec (.patch sel₂ false) s = .next t' ∧ exec (.patch sel₁ false) t' = .next u

/-- `SETSRC a32` (30_encoding.md R81, 41_patcher.md R123): three accesses that leave the new source address big-endian
in bytes 26 to 29 and the checksum of the new header in bytes 24 and 25, and write `PVAL_LO`, `PMSK_LO`, `SUM`,
`RESULT` and ZERO, and nothing else. -/
def Obligations.SetsrcSetsTheSourceAddress : Prop :=
  ∀ (s : State) (a32 : Word) (rest : List Input) (h₁ h₂ : List Byte),
    s.inputs = HostProgram.setsrc a32 ++ rest →
    h₁.length = 10 → h₂.length = 4 → BytesAt s.fb 14 h₁ → BytesAt s.fb 30 h₂ →
    let src : List Byte := [a32.extractLsb' 24 8, a32.extractLsb' 16 8, a32.extractLsb' 8 8, a32.extractLsb' 0 8]
    let header : List Byte := h₁ ++ [0#8, 0#8] ++ (src ++ h₂)
    ∃ m : Memory,
      Host.Core.run Sys2Proof.core 3 s = .next { s with
        fb := m
        pvalLo := a32
        pmskLo := 0xFFFFFFFF#32
        sum := foldedSumOf header
        result := checksumOf header
        status := withZeroFlag (decide (checksumOf header = 0#16)) s.status
        inputs := rest } ∧
      m.read 24 = some ((checksumOf header).extractLsb' 8 8) ∧
      m.read 25 = some ((checksumOf header).extractLsb' 0 8) ∧
      BytesAt m 26 src ∧
      ∀ x, (x < 24 ∨ 30 ≤ x) → m.read x = s.fb.read x

/-! ### TXLEN -/

/-- TXLEN (42_control.md R141): the IPv4 total length plus 14, without wrap, where it fits the buffer; nothing else
changes. -/
def Obligations.TxlenDerivesTheSendLength : Prop :=
  ∀ (s : State) (hi lo : Byte), s.fb.read 16 = some hi → s.fb.read 17 = some lo →
    256 * hi.toNat + lo.toNat + 14 ≤ s.frameCap → s.frameCap ≤ 65535 →
    ∃ n : Half, exec .txlen s = .next { s with txlen := n } ∧ n.toNat = 256 * hi.toNat + lo.toNat + 14

/-- TXLEN of a length above `FRAME_CAP` sets ERR_RANGE and ECODE 3 and changes nothing else (42_control.md R141). -/
def Obligations.TxlenOutOfRangeRaisesCodeThree : Prop :=
  ∀ (s : State) (hi lo : Byte), s.fb.read 16 = some hi → s.fb.read 17 = some lo →
    s.frameCap < 256 * hi.toNat + lo.toNat + 14 →
    exec .txlen s = .next { s with status := withError 3 s.status }

/-- TXLEN faults exactly when byte 16 is unwritten, or 16 is written and 17 is not (42_control.md R141,
60_exceptions.md R153). -/
def Obligations.TxlenFaultsExactlyOnUnwrittenLength : Prop :=
  ∀ (s : State) (e : Fault), exec .txlen s = .fault e ↔
    (s.fb.written 16 = false ∧ e = .uninitRead 16) ∨
    (s.fb.written 16 = true ∧ s.fb.written 17 = false ∧ e = .uninitRead 17)

/-! ### Errors and STATUS -/

/-- Raising error k sets bit 7 + k of `STATUS` and `ECODE` to k; no other bit of `STATUS` and nothing else of the state
changes (60_exceptions.md R151, R152). -/
def Obligations.RaisingAnErrorTouchesOnlyItsBits : Prop :=
  ∀ (k : ErrorCode) (n : Nat) (s : State),
    (k, n) ∈ [(ErrorCode.illegalOpcode, 1), (ErrorCode.reservedField, 2), (ErrorCode.range, 3)] →
    ∃ st : Word, raiseError k s = { s with status := st } ∧ st.getLsbD (7 + n) = true ∧
      st.extractLsb' 16 4 = BitVec.ofNat 4 n ∧
      ∀ i, i ≠ 7 + n → ¬ (16 ≤ i ∧ i < 20) → st.getLsbD i = s.status.getLsbD i

/-- A failing command is precise (60_exceptions.md R152): a command word either records an error and changes nothing but
`STATUS`, or leaves every bit of `STATUS` but ZERO as it was. -/
def Obligations.FailingCommandsArePrecise : Prop :=
  ∀ (s t : State) (w : Word), runCommand w s = .next t →
    (∃ n, n ∈ [1, 2, 3] ∧ t = { s with status := withError n s.status }) ∨
    ∀ i, 1 ≤ i → t.status.getLsbD i = s.status.getLsbD i

/-- Of the decoded commands only CSUM and TXLEN record an error, and the error is Range (60_exceptions.md R151):
REPAIR, PATCH and NOP leave the error bits and `ECODE` alone. -/
def Obligations.OnlyCsumAndTxlenRaiseRange : Prop :=
  ∀ (s t : State) (i : Instr), i.wf = true → exec i s = .next t →
    (statusErr t.status ≠ statusErr s.status ∨ statusEcode t.status ≠ statusEcode s.status) →
    (i = .csum ∨ i = .txlen) ∧ t = { s with status := withError 3 s.status }

/-- The host's write of `STATUS` (10_state.md R31): ones clear sticky bits, `ECODE` becomes 0 when no sticky bit is left
and stays otherwise, no other bit changes; with the rule's worked example. -/
def Obligations.StatusWriteClearsWrittenOnes : Prop :=
  (∀ (s : State) (v : Word) (rest : List Input), s.inputs = .regWrite 0x00C#17 v :: rest →
    ∃ st : Word, step s = .next { s with inputs := rest, status := st } ∧
      st.extractLsb' 8 3 = s.status.extractLsb' 8 3 &&& ~~~(v.extractLsb' 8 3) ∧
      (st.extractLsb' 8 3 = 0#3 → st.extractLsb' 16 4 = 0#4) ∧
      (st.extractLsb' 8 3 ≠ 0#3 → st.extractLsb' 16 4 = s.status.extractLsb' 16 4) ∧
      ∀ i, ¬ (8 ≤ i ∧ i < 11) → ¬ (16 ≤ i ∧ i < 20) → st.getLsbD i = s.status.getLsbD i) ∧
  (∀ (s : State) (rest : List Input), s.status = 0x00020700#32 →
    s.inputs = .regWrite 0x00C#17 0x00000100#32 :: .regWrite 0x00C#17 0x00000600#32 :: rest →
    (∃ t, Host.Core.run Sys2Proof.core 1 s = .next t ∧ t.status = 0x00020600#32) ∧
    (∃ t, Host.Core.run Sys2Proof.core 2 s = .next t ∧ t.status = 0x00000000#32))

/-- The error bits are sticky (10_state.md R29): between resets only a host write to `STATUS` with a 1 in the bit's
position clears one. -/
def Obligations.ErrorBitsAreSticky : Prop :=
  ∀ (s t : State) (b : Nat), b ∈ [8, 9, 10] → step s = .next t →
    s.status.getLsbD b = true → t.status.getLsbD b = false →
    (∃ rest, s.inputs = .reset :: rest) ∨
    (∃ v rest, s.inputs = .regWrite 0x00C#17 v :: rest ∧ v.getLsbD b = true)

/-- `ECODE` changes only by reset, by a failing command, which puts its own code there, or to 0 by a host write to
`STATUS` that leaves all three sticky bits 0 (10_state.md R30). -/
def Obligations.EcodeKeepsTheLatestError : Prop :=
  ∀ s t : State, step s = .next t → statusEcode t.status ≠ statusEcode s.status →
    (∃ rest, s.inputs = .reset :: rest) ∨
    (∃ v rest, s.inputs = .regWrite 0x00C#17 v :: rest ∧ statusErr t.status = 0#3 ∧ statusEcode t.status = 0#4) ∨
    (∃ w rest n, s.inputs = .regWrite 0x008#17 w :: rest ∧ n ∈ [1, 2, 3] ∧
      t = { s with inputs := rest, status := withError n s.status })

/-! ### Who writes what -/

/-- `SUM`, `RESULT` and ZERO change only by reset or by a command that completes a checksum, and then `SUM` is the
complement of `RESULT` and ZERO tells whether `RESULT` is 0 (10_state.md R28, R34, R35). -/
def Obligations.ChecksumResultsOnlyFromChecksumCommands : Prop :=
  ∀ s t : State, step s = .next t →
    (t.sum ≠ s.sum ∨ t.result ≠ s.result ∨ statusZero t.status ≠ statusZero s.status) →
    (∃ rest, s.inputs = .reset :: rest) ∨
    (∃ w i rest, s.inputs = .regWrite 0x008#17 w :: rest ∧ decode w = .ok i ∧
      (i = .csum ∨ i = .repair ∨ ∃ sel, i = .patch sel true) ∧
      t.sum = ~~~t.result ∧ (statusZero t.status = true ↔ t.result = 0#16))

/-- `TXLEN` changes only by reset or by the TXLEN command (10_state.md R38, 70_reset_and_hazards.md R183). -/
def Obligations.SendLengthOnlyFromTxlen : Prop :=
  ∀ s t : State, step s = .next t → t.txlen ≠ s.txlen →
    (∃ rest, s.inputs = .reset :: rest) ∨
    (∃ w rest, s.inputs = .regWrite 0x008#17 w :: rest ∧ decode w = .ok .txlen)

/-- The operand registers change only by reset or by a host write to that register, which stores the low bits of the
value written (10_state.md R20, R32, R33, R36, R37). -/
def Obligations.OperandRegistersOnlyFromHostWrites : Prop :=
  ∀ s t : State, step s = .next t →
    (∃ rest, s.inputs = .reset :: rest) ∨
    ((t.off ≠ s.off → ∃ v rest, s.inputs = .regWrite 0x010#17 v :: rest ∧ t.off = v.extractLsb' 0 16) ∧
     (t.len ≠ s.len → ∃ v rest, s.inputs = .regWrite 0x014#17 v :: rest ∧ t.len = v.extractLsb' 0 16) ∧
     (t.pvalLo ≠ s.pvalLo → ∃ v rest, s.inputs = .regWrite 0x020#17 v :: rest ∧ t.pvalLo = v) ∧
     (t.pvalHi ≠ s.pvalHi → ∃ v rest, s.inputs = .regWrite 0x024#17 v :: rest ∧ t.pvalHi = v.extractLsb' 0 16) ∧
     (t.pmskLo ≠ s.pmskLo → ∃ v rest, s.inputs = .regWrite 0x028#17 v :: rest ∧ t.pmskLo = v) ∧
     (t.pmskHi ≠ s.pmskHi → ∃ v rest, s.inputs = .regWrite 0x02C#17 v :: rest ∧ t.pmskHi = v.extractLsb' 0 16))

/-- A byte of `FB` changes, in value or in mark, only by reset, by a host write of that byte, by a PATCH of a field that
holds it, or, bytes 24 and 25 alone, by REPAIR or PATCH with R = 1 (10_state.md R40, R41). -/
def Obligations.FrameBufferWriters : Prop :=
  ∀ (s t : State) (x : Nat), step s = .next t → t.fb.read x ≠ s.fb.read x →
    (∃ rest, s.inputs = .reset :: rest) ∨
    (∃ a b rest, s.inputs = .fbWrite a b :: rest ∧ a.toNat = 0x1000 + x ∧ x < s.frameCap ∧ t.fb.read x = some b) ∨
    (∃ w rest, s.inputs = .regWrite 0x008#17 w :: rest ∧
      ((decode w = .ok .repair ∧ (x = 24 ∨ x = 25)) ∨
       ∃ sel r f, decode w = .ok (.patch sel r) ∧ fieldOf sel = some f ∧
         ((f.offset ≤ x ∧ x < f.offset + f.width) ∨ (r = true ∧ (x = 24 ∨ x = 25)))))

/-- Written marks are only ever set: short of reset no step clears one (10_state.md R41). -/
def Obligations.WrittenMarksStaySet : Prop :=
  ∀ (s t : State) (x : Nat), step s = .next t → s.fb.written x = true →
    (∃ rest, s.inputs = .reset :: rest) ∨ t.fb.written x = true

/-! ### Host accesses -/

/-- A host read has no side effect: it adds the value it returns to what the host has read, and changes nothing else
(10_state.md R23, 20_memory.md R62). -/
def Obligations.HostReadsHaveNoSideEffect : Prop :=
  ∀ (s t : State) (a : HostAddr) (rest : List Input),
    (s.inputs = .regRead a :: rest ∨ s.inputs = .fbRead a :: rest) → step s = .next t →
    ∃ v, t = { s with inputs := rest, observed := s.observed ++ [v] }

/-- What a host read of each register returns (10_state.md R22, R24 to R26, R32 to R38; 20_memory.md R52). -/
def Obligations.RegisterReadsReturnTheirValues : Prop :=
  ∀ (s : State) (a : HostAddr) (v : Word) (rest : List Input),
    (a, v) ∈ [(0x000#17, 0x49503443#32), (0x004#17, BitVec.ofNat 32 s.frameCap), (0x008#17, 0#32),
      (0x00C#17, s.status), (0x010#17, s.off.setWidth 32), (0x014#17, s.len.setWidth 32),
      (0x018#17, s.result.setWidth 32), (0x01C#17, s.sum.setWidth 32), (0x020#17, s.pvalLo),
      (0x024#17, s.pvalHi.setWidth 32), (0x028#17, s.pmskLo), (0x02C#17, s.pmskHi.setWidth 32),
      (0x030#17, s.txlen.setWidth 32)] →
    s.inputs = .regRead a :: rest →
    step s = .next { s with inputs := rest, observed := s.observed ++ [.word v] }

/-- What a host write of each operand register and each read-only register does (10_state.md R22, R24, R25, R32 to R38):
the low bits are stored, or the write has no effect. -/
def Obligations.RegisterWritesStoreOrAreIgnored : Prop :=
  ∀ (s t : State) (a : HostAddr) (v : Word) (rest : List Input),
    (a, t) ∈ [(0x010#17, { s with inputs := rest, off := v.extractLsb' 0 16 }),
      (0x014#17, { s with inputs := rest, len := v.extractLsb' 0 16 }),
      (0x020#17, { s with inputs := rest, pvalLo := v }),
      (0x024#17, { s with inputs := rest, pvalHi := v.extractLsb' 0 16 }),
      (0x028#17, { s with inputs := rest, pmskLo := v }),
      (0x02C#17, { s with inputs := rest, pmskHi := v.extractLsb' 0 16 }),
      (0x000#17, { s with inputs := rest }), (0x004#17, { s with inputs := rest }),
      (0x018#17, { s with inputs := rest }), (0x01C#17, { s with inputs := rest }),
      (0x030#17, { s with inputs := rest })] →
    s.inputs = .regWrite a v :: rest → step s = .next t

/-- An access of the right width to an unmapped address reads 0 and ignores writes, and sets no status bit
(20_memory.md R56). -/
def Obligations.UnmappedAddressesReadZeroAndIgnoreWrites : Prop :=
  ∀ (s : State) (a : HostAddr) (rest : List Input),
    (0x034 ≤ a.toNat → a.toNat ≤ 0xFFC → a.toNat % 4 = 0 →
      (s.inputs = .regRead a :: rest →
        step s = .next { s with inputs := rest, observed := s.observed ++ [.word 0#32] }) ∧
      (∀ v, s.inputs = .regWrite a v :: rest → step s = .next { s with inputs := rest })) ∧
    (0x1000 + s.frameCap ≤ a.toNat →
      (s.inputs = .fbRead a :: rest →
        step s = .next { s with inputs := rest, observed := s.observed ++ [.byte 0#8] }) ∧
      (∀ b, s.inputs = .fbWrite a b :: rest → step s = .next { s with inputs := rest }))

/-- The machine refuses exactly the host accesses outside the contract: a 32-bit access that is not to an aligned
address of the register block, or an 8-bit access that is not to the FB window (20_memory.md R54, R55). -/
def Obligations.RefusedExactlyOutsideTheContract : Prop :=
  ∀ (s : State) (e : Input) (rest : List Input), s.inputs = e :: rest →
    ((∃ r, step s = .refused r) ↔
      (∃ a, (e = .regRead a ∨ ∃ v, e = .regWrite a v) ∧ ¬ (a.toNat < 0x1000 ∧ a.toNat % 4 = 0)) ∨
      (∃ a, (e = .fbRead a ∨ ∃ b, e = .fbWrite a b) ∧ a.toNat < 0x1000))

/-- The FB window (20_memory.md R53, R55): a write stores its byte at its offset and nowhere else; a read returns the
byte there, or faults where none was written. -/
def Obligations.WindowAccessesReachTheirByte : Prop :=
  ∀ (s : State) (a : HostAddr) (i : Nat) (rest : List Input), a.toNat = 0x1000 + i → i < s.frameCap →
    (∀ b, s.inputs = .fbWrite a b :: rest →
      ∃ m, step s = .next { s with inputs := rest, fb := m } ∧ m.read i = some b ∧
        ∀ x, x ≠ i → m.read x = s.fb.read x) ∧
    (∀ b, s.inputs = .fbRead a :: rest → s.fb.read i = some b →
      step s = .next { s with inputs := rest, observed := s.observed ++ [.byte b] }) ∧
    (s.inputs = .fbRead a :: rest → s.fb.read i = none → step s = .fault (.uninitRead i))

/-- `FbWrite` is idempotent: two equal writes leave the same state as one (20_memory.md R62). -/
def Obligations.EqualByteWritesAreIdempotent : Prop :=
  ∀ (s t : State) (a : HostAddr) (b : Byte) (rest : List Input),
    s.inputs = .fbWrite a b :: .fbWrite a b :: rest → step s = .next t →
    step t = .next { t with inputs := rest }

/-! ### Reset and the invariant -/

/-- Reset (70_reset_and_hazards.md R170), after power-on and when asserted later: every register at its reset value,
`ID` and `CAP` constant, `CMD` holding nothing, no byte of `FB` written. -/
def Obligations.ResetGivesTheResetValues : Prop :=
  ∀ (s t : State) (rest : List Input),
    (t = State.reset ∨ (s.inputs = .reset :: rest ∧ step s = .next t)) →
    t.status = 0#32 ∧ t.off = 0#16 ∧ t.len = 0#16 ∧ t.result = 0#16 ∧ t.sum = 0#16 ∧ t.txlen = 0#16 ∧
    t.pvalLo = 0#32 ∧ t.pmskLo = 0#32 ∧ t.pvalHi = 0#16 ∧ t.pmskHi = 0#16 ∧
    readReg .id t = 0x49503443#32 ∧ readReg .cap t = BitVec.ofNat 32 t.frameCap ∧ readReg .cmd t = 0#32 ∧
    ∀ x, t.fb.written x = false

/-- A reset input always completes, keeps the capacity, and leaves the inputs after it (70_reset_and_hazards.md R171,
R172); that they stay is the model's choice (log entry 7). -/
def Obligations.ResetCompletes : Prop :=
  ∀ (s : State) (rest : List Input), s.inputs = .reset :: rest →
    ∃ t, step s = .next t ∧ t.frameCap = s.frameCap ∧ t.inputs = rest

/-- The state after reset meets the invariant, for every capacity the spec allows. -/
def Obligations.ResetMeetsTheInvariant : Prop :=
  State.reset.Inv

/-- Every step keeps the invariant: the capacity stays in range, `FB` canonical and inside its capacity, reserved bits
of `STATUS` 0, `ECODE` 0 exactly when no error bit is set, `SUM` the complement of `RESULT` once a checksum was
computed, `TXLEN` never above the capacity. -/
def Obligations.EveryStepKeepsTheInvariant : Prop :=
  ∀ s t : State, s.Inv → step s = .next t → t.Inv
end

