-- ==== Sys2Proof/Laws/Checksum.lean ====
section
/-! SUPPORT. The checksum function: its words and its fold loop (40_checksum.md R100 to R103). -/

namespace Sys2Proof.Machine

@[simp] theorem checksumWords_nil : checksumWords [] = [] := rfl

@[simp] theorem checksumWords_single (b : Byte) : checksumWords [b] = [b ++ 0#8] := rfl

@[simp] theorem checksumWords_cons_cons (hi lo : Byte) (bs : List Byte) :
    checksumWords (hi :: lo :: bs) = (hi ++ lo) :: checksumWords bs := rfl

/-- There are ceil(n/2) words (40_checksum.md R100). -/
theorem checksumWords_length (bs : List Byte) : (checksumWords bs).length = (bs.length + 1) / 2 := by
  induction bs using checksumWords.induct with
  | case1 => rfl
  | case2 b => simp
  | case3 hi lo bs ih => simp only [checksumWords_cons_cons, List.length_cons, ih]; omega

/-- A fold step adds the two halves of the accumulator (40_checksum.md R102, R110). -/
theorem foldStep_toNat (x : Word) : (foldStep x).toNat = x.toNat % 65536 + x.toNat / 65536 := by
  have hx := x.isLt
  have hhigh : x.toNat / 65536 < 65536 := by omega
  have hlow : x.toNat % 65536 < 65536 := Nat.mod_lt _ (by decide)
  simp only [foldStep, BitVec.toNat_add, BitVec.toNat_setWidth, BitVec.extractLsb'_toNat, Nat.shiftRight_eq_div_pow,
    Nat.reducePow, Nat.div_one]
  rw [Nat.mod_eq_of_lt hhigh, Nat.mod_eq_of_lt (a := x.toNat / 65536) (by omega),
    Nat.mod_eq_of_lt (a := x.toNat % 65536) (by omega), Nat.mod_eq_of_lt (by omega)]

/-- The loop stops when no bit above bit 15 is set. -/
theorem extractHigh_eq_zero_iff (x : Word) : x.extractLsb' 16 16 = 0#16 ↔ x.toNat < 65536 := by
  have hx := x.isLt
  rw [← BitVec.toNat_inj]
  simp only [BitVec.extractLsb'_toNat, Nat.shiftRight_eq_div_pow, BitVec.toNat_ofNat]
  omega

theorem foldLoop_succ_toNat (n : Nat) (x : Word) :
    foldLoop (n + 1) x = if x.toNat < 65536 then x else foldLoop n (foldStep x) := by
  rw [foldLoop]
  simp only [extractHigh_eq_zero_iff]

/-- Two rounds end the fold loop (40_checksum.md R102, R110): no bit above bit 15 is left. -/
theorem foldLoop_two_high (x : Word) : (foldLoop 2 x).toNat < 65536 := by
  have hx := x.isLt
  rw [foldLoop_succ_toNat]
  split
  · assumption
  · rw [foldLoop_succ_toNat]
    split
    · assumption
    · rename_i h1 h2
      rw [foldLoop, foldStep_toNat]
      rw [foldStep_toNat] at h2 ⊢
      omega

/-- `RESULT` is the complement of `SUM` (10_state.md R35). -/
@[simp] theorem cksum_snd (bs : List Byte) : (cksum bs).2 = ~~~(cksum bs).1 := rfl

end Sys2Proof.Machine
end

