-- ==== Sys2Proof/Laws/State.lean ====
section
/-! SUPPORT. For each named update of the state, what every field reads afterwards: true by `rfl`, so that no proof
unfolds a record update. -/

namespace Sys2Proof.Machine

/-! ### Raising an error changes `STATUS` only -/

@[simp] theorem raiseError_frameCap (k : ErrorCode) (s : State) : (raiseError k s).frameCap = s.frameCap := rfl
@[simp] theorem raiseError_fb (k : ErrorCode) (s : State) : (raiseError k s).fb = s.fb := rfl
@[simp] theorem raiseError_status (k : ErrorCode) (s : State) : (raiseError k s).status = statusAfterError k s.status := rfl
@[simp] theorem raiseError_off (k : ErrorCode) (s : State) : (raiseError k s).off = s.off := rfl
@[simp] theorem raiseError_len (k : ErrorCode) (s : State) : (raiseError k s).len = s.len := rfl
@[simp] theorem raiseError_result (k : ErrorCode) (s : State) : (raiseError k s).result = s.result := rfl
@[simp] theorem raiseError_sum (k : ErrorCode) (s : State) : (raiseError k s).sum = s.sum := rfl
@[simp] theorem raiseError_pvalLo (k : ErrorCode) (s : State) : (raiseError k s).pvalLo = s.pvalLo := rfl
@[simp] theorem raiseError_pvalHi (k : ErrorCode) (s : State) : (raiseError k s).pvalHi = s.pvalHi := rfl
@[simp] theorem raiseError_pmskLo (k : ErrorCode) (s : State) : (raiseError k s).pmskLo = s.pmskLo := rfl
@[simp] theorem raiseError_pmskHi (k : ErrorCode) (s : State) : (raiseError k s).pmskHi = s.pmskHi := rfl
@[simp] theorem raiseError_txlen (k : ErrorCode) (s : State) : (raiseError k s).txlen = s.txlen := rfl
@[simp] theorem raiseError_inputs (k : ErrorCode) (s : State) : (raiseError k s).inputs = s.inputs := rfl
@[simp] theorem raiseError_observed (k : ErrorCode) (s : State) : (raiseError k s).observed = s.observed := rfl

/-! ### The host's write of `STATUS` changes `STATUS` only -/

@[simp] theorem writeStatus_frameCap (v : Word) (s : State) : (writeStatus v s).frameCap = s.frameCap := rfl
@[simp] theorem writeStatus_fb (v : Word) (s : State) : (writeStatus v s).fb = s.fb := rfl
@[simp] theorem writeStatus_status (v : Word) (s : State) : (writeStatus v s).status = statusAfterWrite v s.status := rfl
@[simp] theorem writeStatus_off (v : Word) (s : State) : (writeStatus v s).off = s.off := rfl
@[simp] theorem writeStatus_len (v : Word) (s : State) : (writeStatus v s).len = s.len := rfl
@[simp] theorem writeStatus_result (v : Word) (s : State) : (writeStatus v s).result = s.result := rfl
@[simp] theorem writeStatus_sum (v : Word) (s : State) : (writeStatus v s).sum = s.sum := rfl
@[simp] theorem writeStatus_pvalLo (v : Word) (s : State) : (writeStatus v s).pvalLo = s.pvalLo := rfl
@[simp] theorem writeStatus_pvalHi (v : Word) (s : State) : (writeStatus v s).pvalHi = s.pvalHi := rfl
@[simp] theorem writeStatus_pmskLo (v : Word) (s : State) : (writeStatus v s).pmskLo = s.pmskLo := rfl
@[simp] theorem writeStatus_pmskHi (v : Word) (s : State) : (writeStatus v s).pmskHi = s.pmskHi := rfl
@[simp] theorem writeStatus_txlen (v : Word) (s : State) : (writeStatus v s).txlen = s.txlen := rfl
@[simp] theorem writeStatus_inputs (v : Word) (s : State) : (writeStatus v s).inputs = s.inputs := rfl
@[simp] theorem writeStatus_observed (v : Word) (s : State) : (writeStatus v s).observed = s.observed := rfl

/-! ### Recording a checksum changes `SUM`, `RESULT` and `STATUS` -/

@[simp] theorem recordChecksum_frameCap (sc : Half × Half) (s : State) : (recordChecksum sc s).frameCap = s.frameCap := rfl
@[simp] theorem recordChecksum_fb (sc : Half × Half) (s : State) : (recordChecksum sc s).fb = s.fb := rfl
@[simp] theorem recordChecksum_status (sc : Half × Half) (s : State) : (recordChecksum sc s).status = statusAfterChecksum sc.2 s.status := rfl
@[simp] theorem recordChecksum_off (sc : Half × Half) (s : State) : (recordChecksum sc s).off = s.off := rfl
@[simp] theorem recordChecksum_len (sc : Half × Half) (s : State) : (recordChecksum sc s).len = s.len := rfl
@[simp] theorem recordChecksum_result (sc : Half × Half) (s : State) : (recordChecksum sc s).result = sc.2 := rfl
@[simp] theorem recordChecksum_sum (sc : Half × Half) (s : State) : (recordChecksum sc s).sum = sc.1 := rfl
@[simp] theorem recordChecksum_pvalLo (sc : Half × Half) (s : State) : (recordChecksum sc s).pvalLo = s.pvalLo := rfl
@[simp] theorem recordChecksum_pvalHi (sc : Half × Half) (s : State) : (recordChecksum sc s).pvalHi = s.pvalHi := rfl
@[simp] theorem recordChecksum_pmskLo (sc : Half × Half) (s : State) : (recordChecksum sc s).pmskLo = s.pmskLo := rfl
@[simp] theorem recordChecksum_pmskHi (sc : Half × Half) (s : State) : (recordChecksum sc s).pmskHi = s.pmskHi := rfl
@[simp] theorem recordChecksum_txlen (sc : Half × Half) (s : State) : (recordChecksum sc s).txlen = s.txlen := rfl
@[simp] theorem recordChecksum_inputs (sc : Half × Half) (s : State) : (recordChecksum sc s).inputs = s.inputs := rfl
@[simp] theorem recordChecksum_observed (sc : Half × Half) (s : State) : (recordChecksum sc s).observed = s.observed := rfl

/-! ### A host read changes the observed values only -/

@[simp] theorem observe_frameCap (v : ReadValue) (s : State) : (observe v s).frameCap = s.frameCap := rfl
@[simp] theorem observe_fb (v : ReadValue) (s : State) : (observe v s).fb = s.fb := rfl
@[simp] theorem observe_status (v : ReadValue) (s : State) : (observe v s).status = s.status := rfl
@[simp] theorem observe_off (v : ReadValue) (s : State) : (observe v s).off = s.off := rfl
@[simp] theorem observe_len (v : ReadValue) (s : State) : (observe v s).len = s.len := rfl
@[simp] theorem observe_result (v : ReadValue) (s : State) : (observe v s).result = s.result := rfl
@[simp] theorem observe_sum (v : ReadValue) (s : State) : (observe v s).sum = s.sum := rfl
@[simp] theorem observe_pvalLo (v : ReadValue) (s : State) : (observe v s).pvalLo = s.pvalLo := rfl
@[simp] theorem observe_pvalHi (v : ReadValue) (s : State) : (observe v s).pvalHi = s.pvalHi := rfl
@[simp] theorem observe_pmskLo (v : ReadValue) (s : State) : (observe v s).pmskLo = s.pmskLo := rfl
@[simp] theorem observe_pmskHi (v : ReadValue) (s : State) : (observe v s).pmskHi = s.pmskHi := rfl
@[simp] theorem observe_txlen (v : ReadValue) (s : State) : (observe v s).txlen = s.txlen := rfl
@[simp] theorem observe_inputs (v : ReadValue) (s : State) : (observe v s).inputs = s.inputs := rfl
@[simp] theorem observe_observed (v : ReadValue) (s : State) : (observe v s).observed = s.observed ++ [v] := rfl

/-! ### Reset keeps the capacity and the inputs to come -/

@[simp] theorem resetMachine_frameCap (s : State) : (resetMachine s).frameCap = s.frameCap := rfl
@[simp] theorem resetMachine_fb (s : State) : (resetMachine s).fb = [] := rfl
@[simp] theorem resetMachine_status (s : State) : (resetMachine s).status = 0#32 := rfl
@[simp] theorem resetMachine_off (s : State) : (resetMachine s).off = 0#16 := rfl
@[simp] theorem resetMachine_len (s : State) : (resetMachine s).len = 0#16 := rfl
@[simp] theorem resetMachine_result (s : State) : (resetMachine s).result = 0#16 := rfl
@[simp] theorem resetMachine_sum (s : State) : (resetMachine s).sum = 0#16 := rfl
@[simp] theorem resetMachine_pvalLo (s : State) : (resetMachine s).pvalLo = 0#32 := rfl
@[simp] theorem resetMachine_pvalHi (s : State) : (resetMachine s).pvalHi = 0#16 := rfl
@[simp] theorem resetMachine_pmskLo (s : State) : (resetMachine s).pmskLo = 0#32 := rfl
@[simp] theorem resetMachine_pmskHi (s : State) : (resetMachine s).pmskHi = 0#16 := rfl
@[simp] theorem resetMachine_txlen (s : State) : (resetMachine s).txlen = 0#16 := rfl
@[simp] theorem resetMachine_inputs (s : State) : (resetMachine s).inputs = s.inputs := rfl
@[simp] theorem resetMachine_observed (s : State) : (resetMachine s).observed = [] := rfl

/-! ### The state after reset -/

@[simp] theorem resetWith_frameCap (cap : Nat) : (State.resetWith cap).frameCap = cap := rfl
@[simp] theorem resetWith_fb (cap : Nat) : (State.resetWith cap).fb = [] := rfl
@[simp] theorem resetWith_status (cap : Nat) : (State.resetWith cap).status = 0#32 := rfl
@[simp] theorem resetWith_off (cap : Nat) : (State.resetWith cap).off = 0#16 := rfl
@[simp] theorem resetWith_len (cap : Nat) : (State.resetWith cap).len = 0#16 := rfl
@[simp] theorem resetWith_result (cap : Nat) : (State.resetWith cap).result = 0#16 := rfl
@[simp] theorem resetWith_sum (cap : Nat) : (State.resetWith cap).sum = 0#16 := rfl
@[simp] theorem resetWith_pvalLo (cap : Nat) : (State.resetWith cap).pvalLo = 0#32 := rfl
@[simp] theorem resetWith_pvalHi (cap : Nat) : (State.resetWith cap).pvalHi = 0#16 := rfl
@[simp] theorem resetWith_pmskLo (cap : Nat) : (State.resetWith cap).pmskLo = 0#32 := rfl
@[simp] theorem resetWith_pmskHi (cap : Nat) : (State.resetWith cap).pmskHi = 0#16 := rfl
@[simp] theorem resetWith_txlen (cap : Nat) : (State.resetWith cap).txlen = 0#16 := rfl
@[simp] theorem resetWith_inputs (cap : Nat) : (State.resetWith cap).inputs = [] := rfl
@[simp] theorem resetWith_observed (cap : Nat) : (State.resetWith cap).observed = [] := rfl

/-! ### A command word to come changes the inputs only -/

@[simp] theorem withFetchWord_frameCap (s : State) (n w : Nat) : (s.withFetchWord n w).frameCap = s.frameCap := rfl
@[simp] theorem withFetchWord_fb (s : State) (n w : Nat) : (s.withFetchWord n w).fb = s.fb := rfl
@[simp] theorem withFetchWord_status (s : State) (n w : Nat) : (s.withFetchWord n w).status = s.status := rfl
@[simp] theorem withFetchWord_off (s : State) (n w : Nat) : (s.withFetchWord n w).off = s.off := rfl
@[simp] theorem withFetchWord_len (s : State) (n w : Nat) : (s.withFetchWord n w).len = s.len := rfl
@[simp] theorem withFetchWord_result (s : State) (n w : Nat) : (s.withFetchWord n w).result = s.result := rfl
@[simp] theorem withFetchWord_sum (s : State) (n w : Nat) : (s.withFetchWord n w).sum = s.sum := rfl
@[simp] theorem withFetchWord_pvalLo (s : State) (n w : Nat) : (s.withFetchWord n w).pvalLo = s.pvalLo := rfl
@[simp] theorem withFetchWord_pvalHi (s : State) (n w : Nat) : (s.withFetchWord n w).pvalHi = s.pvalHi := rfl
@[simp] theorem withFetchWord_pmskLo (s : State) (n w : Nat) : (s.withFetchWord n w).pmskLo = s.pmskLo := rfl
@[simp] theorem withFetchWord_pmskHi (s : State) (n w : Nat) : (s.withFetchWord n w).pmskHi = s.pmskHi := rfl
@[simp] theorem withFetchWord_txlen (s : State) (n w : Nat) : (s.withFetchWord n w).txlen = s.txlen := rfl
@[simp] theorem withFetchWord_inputs (s : State) (n w : Nat) : (s.withFetchWord n w).inputs = .regWrite cmdAddr (tableWord n w) :: s.inputs := rfl
@[simp] theorem withFetchWord_observed (s : State) (n w : Nat) : (s.withFetchWord n w).observed = s.observed := rfl

end Sys2Proof.Machine
end

