-- ==== Sys2Proof/Laws/Memory.lean ====
section
/-! SUPPORT. The laws of the frame buffer: read after write, the canonical form, and one lemma for each operation over
several bytes. -/

namespace Sys2Proof.Machine

/-! ### One byte -/

@[simp] theorem read_nil (a : Nat) : Memory.read [] a = none := rfl

theorem read_cons (b : Nat) (v : Byte) (rest : Memory) (a : Nat) :
    Memory.read ((b, v) :: rest) a = if b = a then some v else Memory.read rest a := rfl

/-- Read after write: the byte written at its offset, every other offset as before. -/
theorem read_write (m : Memory) (a : Nat) (v : Byte) (x : Nat) :
    (m.write a v).read x = if x = a then some v else m.read x := by
  induction m with
  | nil => simp only [Memory.write, read_cons, read_nil, eq_comm]
  | cons c rest ih =>
    obtain ⟨b, w⟩ := c
    unfold Memory.write
    split
    · simp only [read_cons, eq_comm]
    · split
      · subst_vars; simp only [read_cons, eq_comm]; split <;> rfl
      · simp only [read_cons, ih]; split
        · rw [if_neg (by omega)]
        · rfl

@[simp] theorem read_write_same (m : Memory) (a : Nat) (v : Byte) : (m.write a v).read a = some v := by
  simp [read_write]

theorem read_write_ne (m : Memory) {a x : Nat} (v : Byte) (h : x ≠ a) : (m.write a v).read x = m.read x := by
  simp [read_write, h]

theorem written_iff (m : Memory) (a : Nat) : m.written a = true ↔ ∃ b, m.read a = some b := by
  simp [Memory.written, Option.isSome_iff_exists]

theorem not_written_iff (m : Memory) (a : Nat) : m.written a = false ↔ m.read a = none := by
  simp [Memory.written]

/-- A write sets its own mark and clears none (10_state.md R41). -/
theorem written_write (m : Memory) (a : Nat) (v : Byte) (x : Nat) :
    (m.write a v).written x = (decide (x = a) || m.written x) := by
  by_cases h : x = a <;> simp [Memory.written, read_write, h]

/-! ### The canonical form -/

/-- An offset below every listed one is not written. -/
theorem read_eq_none_of_lt {m : Memory} {a : Nat} (h : ∀ p ∈ m, a < p.1) : m.read a = none := by
  induction m with
  | nil => rfl
  | cons c rest ih =>
    obtain ⟨b, w⟩ := c
    rw [read_cons, if_neg (by have := h (b, w) (by simp); simp at this; omega)]
    exact ih fun p hp => h p (by simp [hp])

theorem mem_write {m : Memory} {a : Nat} {v : Byte} {p : Host.Cell} (h : p ∈ m.write a v) :
    p = (a, v) ∨ p ∈ m := by
  induction m with
  | nil => simpa [Memory.write] using h
  | cons c rest ih =>
    obtain ⟨b, w⟩ := c
    unfold Memory.write at h
    split at h
    · simpa using h
    · split at h
      · simp only [List.mem_cons] at h ⊢; tauto
      · simp only [List.mem_cons] at h ⊢
        rcases h with h | h
        · exact .inr (.inl h)
        · rcases ih h with h | h <;> tauto

/-- A write keeps the canonical form. -/
theorem write_wf {m : Memory} (h : m.wf) (a : Nat) (v : Byte) : (m.write a v).wf := by
  induction m with
  | nil => simp [Memory.wf, Memory.write]
  | cons c rest ih =>
    obtain ⟨b, w⟩ := c
    rw [Memory.wf, List.pairwise_cons] at h
    unfold Memory.write
    split
    · rename_i hab
      rw [Memory.wf, List.pairwise_cons]
      refine ⟨fun p hp => ?_, List.pairwise_cons.2 h⟩
      rcases List.mem_cons.1 hp with rfl | hp
      · exact hab
      · exact lt_trans hab (h.1 p hp)
    · split
      · subst_vars; exact List.pairwise_cons.2 h
      · refine List.pairwise_cons.2 ⟨fun p hp => ?_, ih h.2⟩
        rcases mem_write hp with rfl | hp
        · simp only; omega
        · exact h.1 p hp

/-- Two buffers in canonical form that read alike everywhere are equal. -/
theorem memory_ext {m m' : Memory} (h : m.wf) (h' : m'.wf) (heq : ∀ a, m.read a = m'.read a) : m = m' := by
  induction m generalizing m' with
  | nil =>
    cases m' with
    | nil => rfl
    | cons c rest => have := heq c.1; rw [show c = (c.1, c.2) from rfl, read_cons] at this; simp at this
  | cons c rest ih =>
    obtain ⟨b, w⟩ := c
    cases m' with
    | nil => have := heq b; simp [read_cons] at this
    | cons c' rest' =>
      obtain ⟨b', w'⟩ := c'
      rw [Memory.wf, List.pairwise_cons] at h h'
      have hlow : ∀ {x}, x ≤ b → Memory.read rest x = none := fun hx =>
        read_eq_none_of_lt fun p hp => lt_of_le_of_lt hx (h.1 p hp)
      have hlow' : ∀ {x}, x ≤ b' → Memory.read rest' x = none := fun hx =>
        read_eq_none_of_lt fun p hp => lt_of_le_of_lt hx (h'.1 p hp)
      have hb : b = b' := by
        have h1 := heq b
        have h2 := heq b'
        simp only [read_cons] at h1 h2
        by_contra hne
        rcases Nat.lt_or_gt_of_ne hne with hlt | hgt
        · rw [if_neg (Ne.symm hne), hlow' (Nat.le_of_lt hlt)] at h1; simp at h1
        · rw [if_neg hne, hlow (Nat.le_of_lt hgt)] at h2; simp at h2
      subst hb
      have hw : w = w' := by simpa [read_cons] using heq b
      subst hw
      rw [ih h.2 h'.2 fun a => ?_]
      have := heq a
      by_cases hab : b = a
      · subst hab; rw [hlow le_rfl, hlow' le_rfl]
      · simpa [read_cons, hab] using this

/-- Two writes at different offsets commute. -/
theorem write_comm {m : Memory} (h : m.wf) {a b : Nat} (hab : a ≠ b) (v w : Byte) :
    (m.write a v).write b w = (m.write b w).write a v :=
  memory_ext (write_wf (write_wf h a v) b w) (write_wf (write_wf h b w) a v) fun x => by
    simp only [read_write]
    by_cases hb : x = b <;> by_cases ha : x = a <;> simp_all

/-! ### Several bytes -/

theorem bytesAt_nil (m : Memory) (a : Nat) : BytesAt m a [] := fun j h => absurd h (Nat.not_lt_zero j)

theorem bytesAt_cons (m : Memory) (a : Nat) (b : Byte) (bs : List Byte) :
    BytesAt m a (b :: bs) ↔ m.read a = some b ∧ BytesAt m (a + 1) bs := by
  constructor
  · intro h
    refine ⟨h 0 (Nat.succ_pos _), fun j hj => ?_⟩
    have := h (j + 1) (by simpa using hj)
    rwa [List.getElem_cons_succ, show a + (j + 1) = a + 1 + j by omega] at this
  · rintro ⟨h0, h⟩ j hj
    cases j with
    | zero => exact h0
    | succ j =>
      rw [List.getElem_cons_succ, show a + (j + 1) = a + 1 + j by omega]
      exact h j (by simpa using hj)

/-- A load of n bytes succeeds exactly when they are all written, and answers them in order. -/
theorem loadBytes_ok_iff (m : Memory) (a n : Nat) (bs : List Byte) :
    loadBytes m a n = .ok bs ↔ bs.length = n ∧ BytesAt m a bs := by
  induction n generalizing a bs with
  | zero =>
    constructor
    · intro h; cases h; exact ⟨rfl, bytesAt_nil m a⟩
    · rintro ⟨h, -⟩; rw [List.length_eq_zero_iff.1 h]; rfl
  | succ n ih =>
    unfold loadBytes
    split
    · rename_i hnone
      refine ⟨fun h => by simp at h, ?_⟩
      rintro ⟨hlen, hat⟩
      cases bs with
      | nil => simp at hlen
      | cons b bs => rw [bytesAt_cons, hnone] at hat; simp at hat
    · rename_i b hb
      split
      · rename_i i hi
        refine ⟨fun h => by simp at h, ?_⟩
        rintro ⟨hlen, hat⟩
        cases bs with
        | nil => simp at hlen
        | cons b' bs =>
          rw [bytesAt_cons] at hat
          have := (ih (a + 1) bs).2 ⟨by simpa using hlen, hat.2⟩
          rw [hi] at this; simp at this
      · rename_i bs' hbs
        have hih := (ih (a + 1) bs').1 hbs
        constructor
        · intro h; cases h
          exact ⟨by simp [hih.1], (bytesAt_cons ..).2 ⟨hb, hih.2⟩⟩
        · rintro ⟨hlen, hat⟩
          cases bs with
          | nil => simp at hlen
          | cons b'' bs'' =>
            rw [bytesAt_cons, hb] at hat
            have := (ih (a + 1) bs'').2 ⟨by simpa using hlen, hat.2⟩
            rw [hbs] at this
            cases this
            simpa using hat.1

/-- A load of n bytes fails exactly at the first unwritten offset of its range. -/
theorem loadBytes_error_iff (m : Memory) (a n i : Nat) :
    loadBytes m a n = .error i ↔
      ∃ j, j < n ∧ i = a + j ∧ m.read (a + j) = none ∧ ∀ k, k < j → m.written (a + k) = true := by
  induction n generalizing a i with
  | zero => exact ⟨fun h => by simp [loadBytes] at h, fun ⟨j, hj, _⟩ => absurd hj (Nat.not_lt_zero j)⟩
  | succ n ih =>
    unfold loadBytes
    split
    · rename_i hnone
      constructor
      · intro h; cases h; exact ⟨0, by omega, rfl, hnone, fun k hk => absurd hk (Nat.not_lt_zero k)⟩
      · rintro ⟨j, -, rfl, -, hall⟩
        cases j with
        | zero => rfl
        | succ j => have := hall 0 (by omega); simp [Memory.written, hnone] at this
    · rename_i b hb
      have hstep : (∃ j, j < n + 1 ∧ i = a + j ∧ m.read (a + j) = none ∧ ∀ k, k < j → m.written (a + k) = true) ↔
          ∃ j, j < n ∧ i = a + 1 + j ∧ m.read (a + 1 + j) = none ∧ ∀ k, k < j → m.written (a + 1 + k) = true := by
        constructor
        · rintro ⟨j, hj, hi, hnone, hall⟩
          cases j with
          | zero => rw [Nat.add_zero, hb] at hnone; simp at hnone
          | succ j =>
            refine ⟨j, by omega, by omega, by rwa [show a + 1 + j = a + (j + 1) by omega], fun k hk => ?_⟩
            rw [show a + 1 + k = a + (k + 1) by omega]; exact hall _ (by omega)
        · rintro ⟨j, hj, hi, hnone, hall⟩
          refine ⟨j + 1, by omega, by omega, by rwa [show a + (j + 1) = a + 1 + j by omega], fun k hk => ?_⟩
          cases k with
          | zero => simp [Memory.written, hb]
          | succ k => rw [show a + (k + 1) = a + 1 + k by omega]; exact hall k (by omega)
      rw [hstep, ← ih (a + 1) i]
      split
      · rename_i i' hi'; simp [hi']
      · rename_i bs hbs; simp [hbs]

/-- The bytes in a range that is written throughout. -/
theorem exists_bytesAt {m : Memory} {a n : Nat} (h : ∀ k, k < n → m.written (a + k) = true) :
    ∃ bs, bs.length = n ∧ BytesAt m a bs := by
  cases hl : loadBytes m a n with
  | ok bs => exact ⟨bs, (loadBytes_ok_iff ..).1 hl⟩
  | error i =>
    obtain ⟨j, hj, -, hnone, -⟩ := (loadBytes_error_iff ..).1 hl
    have := h j hj
    simp [Memory.written, hnone] at this

/-- Storing bytes writes them in order from `a` on and leaves every other offset alone. -/
theorem read_storeBytes (m : Memory) (a : Nat) (bs : List Byte) (x : Nat) :
    (storeBytes m a bs).read x =
      if h : a ≤ x ∧ x - a < bs.length then some bs[x - a] else m.read x := by
  induction bs generalizing m a with
  | nil => simp [storeBytes]
  | cons b bs ih =>
    rw [storeBytes, ih, read_write]
    by_cases hx : x = a
    · subst hx; simp
    · by_cases hlt : a + 1 ≤ x ∧ x - (a + 1) < bs.length
      · rw [dif_pos hlt, dif_pos ⟨by omega, by simp only [List.length_cons]; omega⟩]
        obtain ⟨k, rfl⟩ : ∃ k, x = a + 1 + k := ⟨x - (a + 1), by omega⟩
        simp only [show a + 1 + k - (a + 1) = k by omega, show a + 1 + k - a = k + 1 by omega,
          List.getElem_cons_succ]
      · rw [dif_neg hlt, if_neg hx, dif_neg]
        simp only [List.length_cons]; omega

theorem storeBytes_wf {m : Memory} (h : m.wf) (a : Nat) (bs : List Byte) : (storeBytes m a bs).wf := by
  induction bs generalizing m a with
  | nil => exact h
  | cons b bs ih => exact ih (write_wf h a b) (a + 1)

theorem memWrite_wf {k : Nat} {m : Memory} (h : m.wf) (a n : Nat) (v : BitVec k) : (memWrite m a n v).wf :=
  storeBytes_wf h a _

/-- `MemWrite(a, 2, c)` stores the high byte at `a` and the low byte at `a + 1` (40_checksum.md R105). -/
theorem memWrite_two (m : Memory) (a : Nat) (c : Half) :
    memWrite m a 2 c = (m.write a (c.extractLsb' 8 8)).write (a + 1) (c.extractLsb' 0 8) := rfl

theorem read_memWrite_two (m : Memory) (a : Nat) (c : Half) (x : Nat) :
    (memWrite m a 2 c).read x =
      if x = a + 1 then some (c.extractLsb' 0 8) else if x = a then some (c.extractLsb' 8 8) else m.read x := by
  rw [memWrite_two, read_write, read_write]

/-- Storing two bytes again replaces what the first store wrote. -/
theorem memWrite_two_twice {m : Memory} (h : m.wf) (a : Nat) (c d : Half) :
    memWrite (memWrite m a 2 c) a 2 d = memWrite m a 2 d :=
  memory_ext (memWrite_wf (memWrite_wf h a 2 c) a 2 d) (memWrite_wf h a 2 d) fun x => by
    simp only [read_memWrite_two]; split <;> [rfl; (split <;> rfl)]

/-- What a 16-bit big-endian read answers (00_scope.md R10). -/
theorem memRead_two (m : Memory) (a : Nat) :
    memRead m a 2 =
      match m.read a, m.read (a + 1) with
      | none, _ => .error a
      | some _, none => .error (a + 1)
      | some hi, some lo => .ok (BitVec.ofNat 16 (256 * hi.toNat + lo.toNat)) := by
  unfold memRead loadBytes
  cases m.read a with
  | none => rfl
  | some hi =>
    unfold loadBytes
    cases m.read (a + 1) with
    | none => rfl
    | some lo => simp [loadBytes, bigEndianValue, Nat.mul_comm]

/-- No byte of a list is unwritten. -/
theorem firstUnwritten_eq_none_iff (m : Memory) (l : List Nat) :
    firstUnwritten m l = none ↔ ∀ a ∈ l, m.written a = true := by
  induction l with
  | nil => simp [firstUnwritten]
  | cons a l ih => unfold firstUnwritten; split <;> simp_all

/-- The first unwritten byte of a list, all before it being written. -/
theorem firstUnwritten_eq_some_iff (m : Memory) (l : List Nat) (i : Nat) :
    firstUnwritten m l = some i ↔
      ∃ l₁ l₂, l = l₁ ++ i :: l₂ ∧ (∀ a ∈ l₁, m.written a = true) ∧ m.written i = false := by
  induction l with
  | nil => simp [firstUnwritten]
  | cons a l ih =>
    unfold firstUnwritten
    split
    · rename_i ha
      rw [ih]
      constructor
      · rintro ⟨l₁, l₂, rfl, h₁, hi⟩
        exact ⟨a :: l₁, l₂, rfl, by simpa [ha] using h₁, hi⟩
      · rintro ⟨l₁, l₂, heq, h₁, hi⟩
        cases l₁ with
        | nil => simp only [List.nil_append, List.cons.injEq] at heq; rw [heq.1, hi] at ha; simp at ha
        | cons c l₁ =>
          simp only [List.cons_append, List.cons.injEq] at heq
          exact ⟨l₁, l₂, heq.2, fun x hx => h₁ x (by simp [hx]), hi⟩
    · rename_i ha
      constructor
      · intro h; cases h; exact ⟨[], l, rfl, by simp, by simpa using ha⟩
      · rintro ⟨l₁, l₂, heq, h₁, hi⟩
        cases l₁ with
        | nil => simp only [List.nil_append, List.cons.injEq] at heq; rw [heq.1]
        | cons c l₁ =>
          simp only [List.cons_append, List.cons.injEq] at heq
          exact absurd (h₁ a (by simp [heq.1])) ha

end Sys2Proof.Machine
end

