-- ==== Sys2Proof/Laws/Status.lean ====
section
/-! SUPPORT. What every computation on `STATUS` does to each of its fields (10_state.md R27 to R31). -/

namespace Sys2Proof.Machine

/-- A replaced field reads as the new value and every other bit as before. -/
theorem getLsbD_setField {k : Nat} (x : Word) (lo : Nat) (v : BitVec k) (h : lo + k ≤ 32) (i : Nat) :
    (setField x lo v).getLsbD i = if lo ≤ i ∧ i < lo + k then v.getLsbD (i - lo) else x.getLsbD i := by
  unfold setField
  by_cases hi : i < 32
  · by_cases hlo : lo ≤ i <;> by_cases hhi : i < lo + k
    · have h1 : i - lo < k := by omega
      simp [hi, hlo, hhi, h1, Nat.not_lt.2 hlo]
    · have hge : ¬ i - lo < k := by omega
      have : v.getLsbD (i - lo) = false := BitVec.getLsbD_of_ge _ _ (by omega)
      simp_all
    · have : i < lo := by omega
      simp_all
    · omega
  · have h1 : x.getLsbD i = false := BitVec.getLsbD_of_ge _ _ (by omega)
    rw [if_neg (by omega), h1, BitVec.getLsbD_of_ge _ _ (by omega)]

/-- Two words with equal bits are equal: the 32 bits one by one. -/
theorem word_ext {x y : Word} (h : ∀ i < 32, x.getLsbD i = y.getLsbD i) : x = y :=
  BitVec.eq_of_getLsbD_eq h

theorem statusAfterChecksum_eq (c : Half) (st : Word) :
    statusAfterChecksum c st = withZeroFlag (decide (c = 0#16)) st := by
  apply word_ext
  intro i hi
  unfold statusAfterChecksum withZeroFlag
  rw [getLsbD_setField _ _ _ (by omega)]
  by_cases hc : c = 0#16 <;> interval_cases i <;> simp [hc]

theorem statusAfterError_eq (k : ErrorCode) (st : Word) :
    statusAfterError k st = withError (errorNumber k) st := by
  apply word_ext
  intro i hi
  unfold statusAfterError withError
  rw [getLsbD_setField _ _ _ (by omega), getLsbD_setField _ _ _ (by cases k <;> simp [errorNumber])]
  cases k <;> interval_cases i <;> simp [errorNumber]

/-- Every bit of `STATUS` after an error (60_exceptions.md R152). -/
theorem getLsbD_statusAfterError (k : ErrorCode) (st : Word) (i : Nat) :
    (statusAfterError k st).getLsbD i =
      if 16 ≤ i ∧ i < 20 then (BitVec.ofNat 4 (errorNumber k)).getLsbD (i - 16)
      else if i = 7 + errorNumber k then true else st.getLsbD i := by
  unfold statusAfterError
  rw [getLsbD_setField _ _ _ (by omega), getLsbD_setField _ _ _ (by cases k <;> simp [errorNumber])]
  by_cases h : i = 7 + errorNumber k
  · subst h; simp
  · rw [if_neg h, if_neg (c := 7 + errorNumber k ≤ i ∧ _) (by omega)]

/-- Every bit of `STATUS` after a checksum computation (10_state.md R28). -/
theorem getLsbD_statusAfterChecksum (c : Half) (st : Word) (i : Nat) :
    (statusAfterChecksum c st).getLsbD i = if i = 0 then decide (c = 0#16) else st.getLsbD i := by
  unfold statusAfterChecksum
  rw [getLsbD_setField _ _ _ (by omega)]
  by_cases h : i = 0
  · subst h; by_cases hc : c = 0#16 <;> simp [hc]
  · rw [if_neg h, if_neg (by omega)]

/-- Every bit of `STATUS` after a host write (10_state.md R31). -/
theorem getLsbD_statusAfterWrite (v st : Word) (i : Nat) :
    (statusAfterWrite v st).getLsbD i =
      if 8 ≤ i ∧ i < 11 then st.getLsbD i && !v.getLsbD i
      else if 16 ≤ i ∧ i < 20 ∧ statusErr st &&& ~~~(statusErr v) = 0#3 then false else st.getLsbD i := by
  unfold statusAfterWrite
  dsimp only
  have hbit : ∀ j, 8 ≤ j → j < 11 →
      (statusErr st &&& ~~~(statusErr v)).getLsbD (j - 8) = (st.getLsbD j && !v.getLsbD j) := by
    intro j h1 h2
    have h3 : j - 8 < 3 := by omega
    simp [statusErr, h3, show 8 + (j - 8) = j by omega]
  split
  · rename_i he
    rw [getLsbD_setField _ _ _ (by omega), getLsbD_setField _ _ _ (by omega)]
    by_cases h16 : 16 ≤ i ∧ i < 20
    · rw [if_pos h16, if_neg (by omega), if_pos ⟨h16.1, h16.2, he⟩]; simp
    · rw [if_neg h16]
      by_cases h8 : 8 ≤ i ∧ i < 11
      · rw [if_pos h8, if_pos h8, hbit i h8.1 h8.2]
      · rw [if_neg h8, if_neg h8, if_neg (by tauto)]
  · rename_i he
    rw [getLsbD_setField _ _ _ (by omega)]
    by_cases h8 : 8 ≤ i ∧ i < 11
    · rw [if_pos h8, if_pos h8, hbit i h8.1 h8.2]
    · rw [if_neg h8, if_neg h8, if_neg (by tauto)]

/-! ### The fields, update by update -/

@[simp] theorem statusZero_afterError (k : ErrorCode) (st : Word) :
    statusZero (statusAfterError k st) = statusZero st := by
  rw [statusZero, getLsbD_statusAfterError]; cases k <;> simp [errorNumber, statusZero]

@[simp] theorem statusZero_afterChecksum (c : Half) (st : Word) :
    statusZero (statusAfterChecksum c st) = decide (c = 0#16) := by
  rw [statusZero, getLsbD_statusAfterChecksum]; simp

@[simp] theorem statusZero_afterWrite (v st : Word) : statusZero (statusAfterWrite v st) = statusZero st := by
  rw [statusZero, getLsbD_statusAfterWrite]; simp [statusZero]

@[simp] theorem statusErr_afterChecksum (c : Half) (st : Word) :
    statusErr (statusAfterChecksum c st) = statusErr st := by
  apply BitVec.eq_of_getLsbD_eq
  intro i hi
  simp [statusErr, hi, getLsbD_statusAfterChecksum]

@[simp] theorem statusErr_afterWrite (v st : Word) :
    statusErr (statusAfterWrite v st) = statusErr st &&& ~~~(statusErr v) := by
  apply BitVec.eq_of_getLsbD_eq
  intro i hi
  have : 8 + i < 11 := by omega
  simp [statusErr, hi, getLsbD_statusAfterWrite, this]

@[simp] theorem statusErr_afterError (k : ErrorCode) (st : Word) :
    statusErr (statusAfterError k st) = statusErr st ||| (1#3 <<< (errorNumber k - 1)) := by
  apply BitVec.eq_of_getLsbD_eq
  intro i hi
  rw [statusErr, BitVec.getLsbD_extractLsb', getLsbD_statusAfterError]
  cases k <;> interval_cases i <;> simp [statusErr, errorNumber]

@[simp] theorem statusEcode_afterChecksum (c : Half) (st : Word) :
    statusEcode (statusAfterChecksum c st) = statusEcode st := by
  apply BitVec.eq_of_getLsbD_eq
  intro i hi
  simp [statusEcode, hi, getLsbD_statusAfterChecksum]

@[simp] theorem statusEcode_afterError (k : ErrorCode) (st : Word) :
    statusEcode (statusAfterError k st) = BitVec.ofNat 4 (errorNumber k) := by
  apply BitVec.eq_of_getLsbD_eq
  intro i hi
  have : 16 + i < 20 := by omega
  simp [statusEcode, hi, getLsbD_statusAfterError, this]

@[simp] theorem statusEcode_afterWrite (v st : Word) :
    statusEcode (statusAfterWrite v st) =
      if statusErr st &&& ~~~(statusErr v) = 0#3 then 0#4 else statusEcode st := by
  apply BitVec.eq_of_getLsbD_eq
  intro i hi
  have h1 : 16 + i < 20 := by omega
  have h2 : ¬ 16 + i < 11 := by omega
  split <;> rename_i h <;> simp [statusEcode, hi, getLsbD_statusAfterWrite, h1, h2, h]

end Sys2Proof.Machine
end

