-- ==== Sys2Proof/Laws/Commands.lean ====
section
/-! SUPPORT. For each meaning, once, everything it can answer; later proofs cite these and unfold no meaning. -/

namespace Sys2Proof.Machine

/-! ### Updates of the frame buffer -/

/-- What REPAIR and PATCH may do to `FB`: keep its form, clear no mark, touch no byte from offset 42 on. -/
structure FbUpdate (m m' : Memory) : Prop where
  wf : m.wf → m'.wf
  keeps : ∀ x, m.written x = true → m'.written x = true
  payload : ∀ x, 42 ≤ x → m'.read x = m.read x

theorem FbUpdate.refl (m : Memory) : FbUpdate m m := ⟨id, fun _ => id, fun _ _ => rfl⟩

theorem FbUpdate.trans {m m' m'' : Memory} (h : FbUpdate m m') (h' : FbUpdate m' m'') : FbUpdate m m'' :=
  ⟨fun hw => h'.wf (h.wf hw), fun x hx => h'.keeps x (h.keeps x hx),
    fun x hx => (h'.payload x hx).trans (h.payload x hx)⟩

theorem FbUpdate.write (m : Memory) {a : Nat} (v : Byte) (ha : a < 42) : FbUpdate m (m.write a v) :=
  ⟨fun hw => write_wf hw a v, fun x hx => by simp [written_write, hx],
    fun x hx => read_write_ne m v (by omega)⟩

theorem FbUpdate.memWrite_checksum (m : Memory) (c : Half) : FbUpdate m (memWrite m checksumOffset 2 c) := by
  rw [memWrite_two]
  exact (FbUpdate.write m _ (by decide)).trans (FbUpdate.write _ _ (by decide))

/-! ### The layout table -/

/-- Every field lies in the 42 header bytes and is 1, 2, 4 or 6 bytes wide (41_patcher.md R120). -/
theorem layout_inside : ∀ f ∈ layout, f.offset + f.width ≤ 42 ∧ f.width ∈ [1, 2, 4, 6] := by decide

/-- A selector names a field exactly when it is below 17 (30_encoding.md R75). -/
theorem fieldOf_eq_none_iff (sel : BitVec 5) : fieldOf sel = none ↔ fieldCount ≤ sel.toNat := by
  rw [fieldOf, List.getElem?_eq_none_iff]; rfl

theorem fieldOf_isSome {sel : BitVec 5} (h : sel.toNat < fieldCount) : ∃ f, fieldOf sel = some f := by
  cases hf : fieldOf sel with
  | some f => exact ⟨f, rfl⟩
  | none => rw [fieldOf_eq_none_iff] at hf; omega

theorem fieldOf_inside {sel : BitVec 5} {f : HeaderField} (h : fieldOf sel = some f) :
    f.offset + f.width ≤ 42 ∧ f.width ∈ [1, 2, 4, 6] :=
  layout_inside f (List.mem_of_getElem? h)

/-! ### CSUM -/

theorem rangeEnd_toNat (s : State) : (rangeEnd s).toNat = s.off.toNat + s.len.toNat := by
  have h1 := s.off.isLt
  have h2 := s.len.isLt
  simp only [rangeEnd, BitVec.toNat_add, BitVec.toNat_setWidth]
  omega

/-- CSUM out of range raises Range (40_checksum.md R104). -/
theorem execCsum_out {s : State} (h : s.frameCap < s.off.toNat + s.len.toNat) :
    execCsum s = .next (raiseError .range s) := by
  rw [execCsum, rangeEnd_toNat, if_neg (by omega)]

/-- CSUM over written bytes in range records their checksum (40_checksum.md R104). -/
theorem execCsum_in {s : State} {bs : List Byte} (h : s.off.toNat + s.len.toNat ≤ s.frameCap)
    (hlen : bs.length = s.len.toNat) (hat : BytesAt s.fb s.off.toNat bs) :
    execCsum s = .next (recordChecksum (cksum bs) s) := by
  rw [execCsum, rangeEnd_toNat, if_pos h, (loadBytes_ok_iff ..).2 ⟨hlen, hat⟩]

/-- CSUM in range faults at the first unwritten byte (70_reset_and_hazards.md R174). -/
theorem execCsum_uninit {s : State} {j : Nat} (h : s.off.toNat + s.len.toNat ≤ s.frameCap) (hj : j < s.len.toNat)
    (hnone : s.fb.read (s.off.toNat + j) = none) (hall : ∀ k, k < j → s.fb.written (s.off.toNat + k) = true) :
    execCsum s = .fault (.uninitRead (s.off.toNat + j)) := by
  rw [execCsum, rangeEnd_toNat, if_pos h, (loadBytes_error_iff ..).2 ⟨j, hj, rfl, hnone, hall⟩]

/-- Everything CSUM can answer. -/
theorem execCsum_cases (s : State) :
    (s.frameCap < s.off.toNat + s.len.toNat ∧ execCsum s = .next (raiseError .range s)) ∨
    (s.off.toNat + s.len.toNat ≤ s.frameCap ∧ ∃ bs, bs.length = s.len.toNat ∧ BytesAt s.fb s.off.toNat bs ∧
      execCsum s = .next (recordChecksum (cksum bs) s)) ∨
    (s.off.toNat + s.len.toNat ≤ s.frameCap ∧ ∃ j, j < s.len.toNat ∧ s.fb.read (s.off.toNat + j) = none ∧
      (∀ k, k < j → s.fb.written (s.off.toNat + k) = true) ∧
      execCsum s = .fault (.uninitRead (s.off.toNat + j))) := by
  by_cases h : s.off.toNat + s.len.toNat ≤ s.frameCap
  · cases hl : loadBytes s.fb s.off.toNat s.len.toNat with
    | ok bs =>
      obtain ⟨hlen, hat⟩ := (loadBytes_ok_iff ..).1 hl
      exact .inr (.inl ⟨h, bs, hlen, hat, execCsum_in h hlen hat⟩)
    | error i =>
      obtain ⟨j, hj, rfl, hnone, hall⟩ := (loadBytes_error_iff ..).1 hl
      exact .inr (.inr ⟨h, j, hj, hnone, hall, execCsum_uninit h hj hnone hall⟩)
  · exact .inl ⟨by omega, execCsum_out (by omega)⟩

/-! ### REPAIR -/

theorem mem_repairInputs (i : Nat) : i ∈ repairInputs ↔ (14 ≤ i ∧ i < 24) ∨ (26 ≤ i ∧ i < 34) := by
  simp only [repairInputs, List.mem_append, List.mem_range'_1]

/-- The bytes REPAIR needs are written exactly when the header is loaded. -/
theorem headerLoaded_iff (s : State) : s.HeaderLoaded ↔ firstUnwritten s.fb repairInputs = none := by
  rw [firstUnwritten_eq_none_iff]
  constructor
  · intro h i hi
    rw [mem_repairInputs] at hi
    exact h i (by omega) (by omega) (by omega) (by omega)
  · intro h i h1 h2 h3 h4
    exact h i ((mem_repairInputs i).2 (by omega))

/-- What a store of a checksum into the checksum field leaves (40_checksum.md R105). -/
theorem read_storeChecksum (m : Memory) (c : Half) (x : Nat) :
    (memWrite m checksumOffset 2 c).read x =
      if x = 25 then some (c.extractLsb' 0 8) else if x = 24 then some (c.extractLsb' 8 8) else m.read x :=
  read_memWrite_two m 24 c x

/-- Bytes that stand in one buffer stand in any other that reads alike over their range. -/
theorem bytesAt_congr {m m' : Memory} {a : Nat} {bs : List Byte}
    (h : ∀ x, a ≤ x → x < a + bs.length → m'.read x = m.read x) (hat : BytesAt m a bs) : BytesAt m' a bs := by
  intro j hj
  rw [h _ (by omega) (by omega)]
  exact hat j hj

/-- A buffer holds one list of bytes of a given length at an offset. -/
theorem bytesAt_unique {m : Memory} {a : Nat} {bs bs' : List Byte} (hl : bs.length = bs'.length)
    (h : BytesAt m a bs) (h' : BytesAt m a bs') : bs = bs' := by
  apply List.ext_getElem hl
  intro j h1 h2
  have := h j h1
  rw [h' j h2] at this
  exact (Option.some.inj this).symm

/-- The IPv4 header from its part before the checksum field, that field, and its part after it. -/
theorem bytesAt_header {m : Memory} {h₁ h₂ : List Byte} {b c : Byte} (hl₁ : h₁.length = 10)
    (hat₁ : BytesAt m 14 h₁) (hat₂ : BytesAt m 26 h₂) (h24 : m.read 24 = some b) (h25 : m.read 25 = some c) :
    BytesAt m 14 (h₁ ++ [b, c] ++ h₂) := by
  intro j hj
  simp only [List.length_append, List.length_cons, List.length_nil, hl₁] at hj
  by_cases h1 : j < 10
  · rw [List.getElem_append_left (by simp [hl₁]; omega), List.getElem_append_left (by omega)]
    exact hat₁ j (by omega)
  · by_cases h2 : j = 10
    · subst h2
      rw [List.getElem_append_left (by simp [hl₁]), List.getElem_append_right (by omega)]
      simp [hl₁, h24]
    · by_cases h3 : j = 11
      · subst h3
        rw [List.getElem_append_left (by simp [hl₁]), List.getElem_append_right (by omega)]
        simp [hl₁, h25]
      · rw [List.getElem_append_right (by simp [hl₁]; omega)]
        have := hat₂ (j - 12) (by omega)
        rw [show 26 + (j - 12) = 14 + j by omega] at this
        rw [this]
        simp [hl₁]

/-- The header REPAIR sums: the bytes before and after the checksum field, with that field zero
(40_checksum.md R106). -/
theorem bytesAt_zeroed {m : Memory} {h₁ h₂ : List Byte} (hl₁ : h₁.length = 10) (hl₂ : h₂.length = 8)
    (hat₁ : BytesAt m 14 h₁) (hat₂ : BytesAt m 26 h₂) :
    BytesAt (memWrite m checksumOffset 2 0#16) 14 (h₁ ++ [0#8, 0#8] ++ h₂) := by
  refine bytesAt_header hl₁ (bytesAt_congr (fun x h1 h2 => ?_) hat₁) (bytesAt_congr (fun x h1 h2 => ?_) hat₂) ?_ ?_
  · rw [read_storeChecksum, if_neg (by omega), if_neg (by omega)]
  · rw [read_storeChecksum, if_neg (by omega), if_neg (by omega)]
  · rw [read_storeChecksum, if_neg (by omega), if_pos rfl]; rfl
  · rw [read_storeChecksum, if_pos rfl]; rfl

/-- REPAIR of a loaded header (40_checksum.md R106): what it records and what it stores. -/
theorem repairHeader_loaded {s : State} {h₁ h₂ : List Byte} (hl₁ : h₁.length = 10) (hl₂ : h₂.length = 8)
    (hat₁ : BytesAt s.fb 14 h₁) (hat₂ : BytesAt s.fb 26 h₂) :
    repairHeader s = .next (recordChecksum (cksum (h₁ ++ [0#8, 0#8] ++ h₂))
      { s with fb := memWrite (memWrite s.fb checksumOffset 2 0#16) checksumOffset 2
                (cksum (h₁ ++ [0#8, 0#8] ++ h₂)).2 }) := by
  have hload : firstUnwritten s.fb repairInputs = none := by
    rw [firstUnwritten_eq_none_iff]
    intro i hi
    rw [mem_repairInputs] at hi
    rw [written_iff]
    rcases hi with hi | hi
    · have := hat₁ (i - 14) (by omega)
      rw [show 14 + (i - 14) = i by omega] at this
      exact ⟨_, this⟩
    · have := hat₂ (i - 26) (by omega)
      rw [show 26 + (i - 26) = i by omega] at this
      exact ⟨_, this⟩
  have hbs := (loadBytes_ok_iff (memWrite s.fb checksumOffset 2 0#16) ipv4Offset ipv4Size _).2
    ⟨by simp [hl₁, hl₂, ipv4Size], bytesAt_zeroed hl₁ hl₂ hat₁ hat₂⟩
  unfold repairHeader
  simp only [hload, hbs]

/-- The bytes of a loaded header before and after the checksum field. -/
theorem headerLoaded_bytes {s : State} (h : s.HeaderLoaded) :
    ∃ h₁ h₂ : List Byte, h₁.length = 10 ∧ h₂.length = 8 ∧ BytesAt s.fb 14 h₁ ∧ BytesAt s.fb 26 h₂ := by
  obtain ⟨h₁, hl₁, hat₁⟩ := exists_bytesAt (m := s.fb) (a := 14) (n := 10)
    fun k hk => h (14 + k) (by omega) (by omega) (by omega) (by omega)
  obtain ⟨h₂, hl₂, hat₂⟩ := exists_bytesAt (m := s.fb) (a := 26) (n := 8)
    fun k hk => h (26 + k) (by omega) (by omega) (by omega) (by omega)
  exact ⟨h₁, h₂, hl₁, hl₂, hat₁, hat₂⟩

/-- REPAIR with an unwritten byte faults at the first one (70_reset_and_hazards.md R174). -/
theorem repairHeader_uninit {s : State} {i : Nat} (h : firstUnwritten s.fb repairInputs = some i) :
    repairHeader s = .fault (.uninitRead i) := by
  unfold repairHeader; rw [h]

/-- Everything the repair sequence can answer. -/
theorem repairHeader_cases (s : State) :
    (∃ h₁ h₂ : List Byte, h₁.length = 10 ∧ h₂.length = 8 ∧ BytesAt s.fb 14 h₁ ∧ BytesAt s.fb 26 h₂ ∧
      repairHeader s = .next (recordChecksum (cksum (h₁ ++ [0#8, 0#8] ++ h₂))
        { s with fb := memWrite (memWrite s.fb checksumOffset 2 0#16) checksumOffset 2
                  (cksum (h₁ ++ [0#8, 0#8] ++ h₂)).2 })) ∨
    (∃ i, firstUnwritten s.fb repairInputs = some i ∧ repairHeader s = .fault (.uninitRead i)) := by
  cases hf : firstUnwritten s.fb repairInputs with
  | none =>
    obtain ⟨h₁, h₂, hl₁, hl₂, hat₁, hat₂⟩ := headerLoaded_bytes ((headerLoaded_iff s).2 hf)
    exact .inl ⟨h₁, h₂, hl₁, hl₂, hat₁, hat₂, repairHeader_loaded hl₁ hl₂ hat₁ hat₂⟩
  | some i => exact .inr ⟨i, rfl, repairHeader_uninit hf⟩

/-! ### PATCH -/

/-- A byte is patched unless its mask is partial and it is unwritten (41_patcher.md R121). -/
theorem patchByte_ok {m : Memory} {a : Nat} {vb mb : Byte} (h : PartialMask mb → m.written a = true) :
    ∃ m', patchByte m a vb mb = .ok m' ∧
      ∀ x, m'.read x = if x = a then patchedByte (m.read a) vb mb else m.read x := by
  unfold patchByte patchedByte
  by_cases hff : mb = 0xFF#8
  · exact ⟨_, if_pos hff, fun x => by rw [read_write, if_pos hff]⟩
  · by_cases h00 : mb = 0x00#8
    · refine ⟨m, by rw [if_neg hff, if_pos h00], fun x => ?_⟩
      rw [if_neg hff, if_pos h00]; split <;> simp_all
    · obtain ⟨old, hold⟩ := (written_iff m a).1 (h ⟨hff, h00⟩)
      refine ⟨m.write a (mergeByte old vb mb), by simp only [if_neg hff, if_neg h00, hold], fun x => ?_⟩
      rw [read_write, if_neg hff, if_neg h00, hold]; rfl

theorem patchByte_error {m : Memory} {a : Nat} {vb mb : Byte} (hp : PartialMask mb) (h : m.written a = false) :
    patchByte m a vb mb = .error a := by
  rw [not_written_iff] at h
  simp only [patchByte, if_neg hp.1, if_neg hp.2, h]

theorem patchByte_update {m m' : Memory} {a : Nat} {vb mb : Byte} (ha : a < 42) (h : patchByte m a vb mb = .ok m') :
    FbUpdate m m' := by
  unfold patchByte at h
  split at h
  · cases h; exact .write m vb ha
  · split at h
    · cases h; exact .refl m
    · split at h
      · cases h
      · cases h; exact .write m _ ha

/-- Whether byte `j` of a field can be patched: its mask is full or zero, or the byte is written. -/
def Patchable (f : HeaderField) (msk : Wide) (m : Memory) (j : Nat) : Prop :=
  PartialMask (byteOf msk f.width j) → m.written (f.offset + j) = true

/-- The loop over bytes of distinct offsets: each patched by its byte of value and mask, no other byte changed. -/
theorem patchBytes_ok {f : HeaderField} {v msk : Wide} {js : List Nat} {m : Memory} (hnd : js.Nodup)
    (h : ∀ j ∈ js, Patchable f msk m j) :
    ∃ m', patchBytes f v msk js m = .ok m' ∧
      (∀ j ∈ js, m'.read (f.offset + j) =
        patchedByte (m.read (f.offset + j)) (byteOf v f.width j) (byteOf msk f.width j)) ∧
      ∀ x, (∀ j ∈ js, x ≠ f.offset + j) → m'.read x = m.read x := by
  induction js generalizing m with
  | nil => exact ⟨m, rfl, by simp, fun x _ => rfl⟩
  | cons j js ih =>
    rw [List.nodup_cons] at hnd
    obtain ⟨m₁, hm₁, hr₁⟩ := patchByte_ok (vb := byteOf v f.width j) (h j (by simp))
    have hsame : ∀ k ∈ js, m₁.read (f.offset + k) = m.read (f.offset + k) := fun k hk => by
      rw [hr₁, if_neg fun he => hnd.1 (by rwa [← Nat.add_left_cancel he])]
    obtain ⟨m', hm', hr', ho'⟩ := ih (m := m₁) hnd.2 fun k hk hp => by
      simp only [Memory.written, hsame k hk]
      exact h k (by simp [hk]) hp
    refine ⟨m', by simp only [patchBytes, hm₁, hm'], fun k hk => ?_, fun x hx => ?_⟩
    · rcases List.mem_cons.1 hk with rfl | hk
      · rw [ho' _ fun i hi he => hnd.1 (by rwa [Nat.add_left_cancel he]), hr₁, if_pos rfl]
      · rw [hr' k hk, hsame k hk]
    · rw [ho' x fun i hi => hx i (by simp [hi]), hr₁, if_neg (hx j (by simp))]

/-- The loop faults at the first byte that cannot be patched. -/
theorem patchBytes_error {f : HeaderField} {v msk : Wide} {l₁ l₂ : List Nat} {j : Nat} {m : Memory}
    (hnd : (l₁ ++ j :: l₂).Nodup) (h : ∀ k ∈ l₁, Patchable f msk m k)
    (hp : PartialMask (byteOf msk f.width j)) (hw : m.written (f.offset + j) = false) :
    patchBytes f v msk (l₁ ++ j :: l₂) m = .error (f.offset + j) := by
  induction l₁ generalizing m with
  | nil => simp only [List.nil_append, patchBytes, patchByte_error hp hw]
  | cons k l₁ ih =>
    rw [List.cons_append, List.nodup_cons] at hnd
    obtain ⟨m₁, hm₁, hr₁⟩ := patchByte_ok (vb := byteOf v f.width k) (h k (by simp))
    have hsame : ∀ i ∈ l₁ ++ j :: l₂, m₁.read (f.offset + i) = m.read (f.offset + i) := fun i hi => by
      rw [hr₁, if_neg fun he => hnd.1 (by rwa [← Nat.add_left_cancel he])]
    simp only [List.cons_append, patchBytes, hm₁]
    refine ih hnd.2 (fun i hi hpi => ?_) ?_
    · simp only [Memory.written, hsame i (by simp [hi])]
      exact h i (by simp [hi]) hpi
    · simp only [Memory.written, hsame j (by simp)]
      exact hw

theorem patchBytes_update {f : HeaderField} {v msk : Wide} {js : List Nat} {m m' : Memory}
    (ha : ∀ j ∈ js, f.offset + j < 42) (h : patchBytes f v msk js m = .ok m') : FbUpdate m m' := by
  induction js generalizing m with
  | nil => cases h; exact .refl _
  | cons j js ih =>
    unfold patchBytes at h
    split at h
    · cases h
    · rename_i m₁ hm₁
      exact (patchByte_update (ha j (by simp)) hm₁).trans (ih (fun k hk => ha k (by simp [hk])) h)

/-- The masked write of a field whose bytes can be patched (41_patcher.md R121). -/
theorem patchField_ok {f : HeaderField} {v msk : Wide} {m : Memory} (h : ∀ j, j < f.width → Patchable f msk m j) :
    ∃ m', patchField f v msk m = .ok m' ∧
      (∀ j, j < f.width → m'.read (f.offset + j) =
        patchedByte (m.read (f.offset + j)) (byteOf v f.width j) (byteOf msk f.width j)) ∧
      ∀ x, (x < f.offset ∨ f.offset + f.width ≤ x) → m'.read x = m.read x := by
  obtain ⟨m', hm', hr, ho⟩ := patchBytes_ok (v := v) (m := m) List.nodup_range fun j hj => h j (List.mem_range.1 hj)
  refine ⟨m', hm', fun j hj => hr j (List.mem_range.2 hj), fun x hx => ho x fun j hj => ?_⟩
  have := List.mem_range.1 hj
  omega

/-- The masked write of a field faults at its first byte that cannot be patched (41_patcher.md R121). -/
theorem patchField_error {f : HeaderField} {v msk : Wide} {m : Memory} {j : Nat} (hj : j < f.width)
    (h : ∀ k, k < j → Patchable f msk m k) (hp : PartialMask (byteOf msk f.width j))
    (hw : m.written (f.offset + j) = false) : patchField f v msk m = .error (f.offset + j) := by
  have hsplit : List.range f.width = List.range j ++ j :: List.range' (j + 1) (f.width - j - 1) := by
    rw [List.range_eq_range', List.range_eq_range', show f.width = j + (1 + (f.width - j - 1)) by omega,
      ← List.range'_append_1, ← List.range'_append_1]
    simp
  unfold patchField
  rw [hsplit]
  refine patchBytes_error ?_ (fun k hk => h k (List.mem_range.1 hk)) hp hw
  rw [← hsplit]
  exact List.nodup_range

/-- Everything the masked write of a field can answer. -/
theorem patchField_cases (f : HeaderField) (v msk : Wide) (m : Memory) :
    (∃ m', patchField f v msk m = .ok m' ∧ (∀ j, j < f.width → Patchable f msk m j) ∧
      (∀ j, j < f.width → m'.read (f.offset + j) =
        patchedByte (m.read (f.offset + j)) (byteOf v f.width j) (byteOf msk f.width j)) ∧
      ∀ x, (x < f.offset ∨ f.offset + f.width ≤ x) → m'.read x = m.read x) ∨
    (∃ j, j < f.width ∧ (∀ k, k < j → Patchable f msk m k) ∧ PartialMask (byteOf msk f.width j) ∧
      m.written (f.offset + j) = false ∧ patchField f v msk m = .error (f.offset + j)) := by
  classical
  by_cases hall : ∀ j, j < f.width → Patchable f msk m j
  · obtain ⟨m', hm', hr, ho⟩ := patchField_ok (v := v) hall
    exact .inl ⟨m', hm', hall, hr, ho⟩
  · push Not at hall
    obtain ⟨j, ⟨hj, hbad⟩, hmin⟩ : ∃ j, (j < f.width ∧ ¬ Patchable f msk m j) ∧
        ∀ k, k < j → ¬ (k < f.width ∧ ¬ Patchable f msk m k) :=
      ⟨Nat.find hall, Nat.find_spec hall, fun k hk => Nat.find_min hall hk⟩
    have hbefore : ∀ k, k < j → Patchable f msk m k := fun k hk => by
      by_contra hk'
      exact hmin k hk ⟨by omega, hk'⟩
    simp only [Patchable, Classical.not_imp, Bool.not_eq_true] at hbad
    exact .inr ⟨j, hj, hbefore, hbad.1, hbad.2, patchField_error hj hbefore hbad.1 hbad.2⟩

theorem patchField_update {f : HeaderField} {v msk : Wide} {m m' : Memory} (hf : f.offset + f.width ≤ 42)
    (h : patchField f v msk m = .ok m') : FbUpdate m m' :=
  patchBytes_update (fun j hj => by have := List.mem_range.1 hj; omega) h

/-- PATCH with R = 0 and PATCH with R = 1, from the field write (41_patcher.md R121, R122). -/
theorem execPatch_ok {sel : BitVec 5} {f : HeaderField} {s : State} {m : Memory} (r : Bool) (hf : fieldOf sel = some f)
    (h : patchField f (patchValue s) (patchMask s) s.fb = .ok m) :
    execPatch sel r s = if r then repairHeader { s with fb := m } else .next { s with fb := m } := by
  simp only [execPatch, hf, h]

theorem execPatch_error {sel : BitVec 5} {f : HeaderField} {s : State} {i : Nat} (r : Bool) (hf : fieldOf sel = some f)
    (h : patchField f (patchValue s) (patchMask s) s.fb = .error i) :
    execPatch sel r s = .fault (.uninitRead i) := by
  simp only [execPatch, hf, h]

theorem execPatch_reserved {sel : BitVec 5} (r : Bool) (s : State) (h : fieldCount ≤ sel.toNat) :
    execPatch sel r s = .next (raiseError .reservedField s) := by
  simp only [execPatch, (fieldOf_eq_none_iff sel).2 h]

/-! ### TXLEN -/

theorem sendLength_toNat (tl : Half) : (sendLength tl).toNat = tl.toNat + 14 := by
  have := tl.isLt
  simp only [sendLength, BitVec.toNat_add, BitVec.toNat_setWidth, BitVec.toNat_ofNat]
  omega

/-- Everything TXLEN can answer (42_control.md R141). -/
theorem execTxlen_cases (s : State) :
    (∃ hi lo, s.fb.read 16 = some hi ∧ s.fb.read 17 = some lo ∧ 256 * hi.toNat + lo.toNat + 14 ≤ s.frameCap ∧
      execTxlen s = .next { s with txlen := BitVec.ofNat 16 (256 * hi.toNat + lo.toNat + 14) }) ∨
    (∃ hi lo, s.fb.read 16 = some hi ∧ s.fb.read 17 = some lo ∧ s.frameCap < 256 * hi.toNat + lo.toNat + 14 ∧
      execTxlen s = .next (raiseError .range s)) ∨
    (s.fb.read 16 = none ∧ execTxlen s = .fault (.uninitRead 16)) ∨
    (s.fb.written 16 = true ∧ s.fb.read 17 = none ∧ execTxlen s = .fault (.uninitRead 17)) := by
  unfold execTxlen
  rw [memRead_two]
  simp only [totalLengthOffset, show 16 + 1 = 17 from rfl]
  cases h16 : s.fb.read 16 with
  | none => simp
  | some hi =>
    cases h17 : s.fb.read 17 with
    | none => simp [Memory.written, h16]
    | some lo =>
      have h1 := hi.isLt
      have h2 := lo.isLt
      have htl : (BitVec.ofNat 16 (256 * hi.toNat + lo.toNat)).toNat = 256 * hi.toNat + lo.toNat := by
        rw [BitVec.toNat_ofNat]; omega
      simp only [sendLength_toNat, htl]
      by_cases hle : 256 * hi.toNat + lo.toNat + 14 ≤ s.frameCap
      · refine .inl ⟨hi, lo, rfl, rfl, hle, ?_⟩
        rw [if_pos hle]
        congr 2
        apply BitVec.eq_of_toNat_eq
        rw [BitVec.extractLsb'_toNat, sendLength_toNat, htl, BitVec.toNat_ofNat, Nat.shiftRight_zero]
      · exact .inr (.inl ⟨hi, lo, rfl, rfl, by omega, if_neg hle⟩)

/-! ### All commands -/

/-- Everything a command that goes on can leave: an error in `STATUS`, or its own effect. -/
theorem exec_next_cases {i : Instr} {s t : State} (h : exec i s = .next t) :
    (∃ k, t = raiseError k s) ∨
    (i = .nop ∧ t = s) ∨
    (i = .csum ∧ ∃ bs, t = recordChecksum (cksum bs) s) ∨
    ((i = .repair ∨ ∃ sel, i = .patch sel true) ∧
      ∃ bs m, FbUpdate s.fb m ∧ t = recordChecksum (cksum bs) { s with fb := m }) ∨
    ((∃ sel, i = .patch sel false) ∧ ∃ m, FbUpdate s.fb m ∧ t = { s with fb := m }) ∨
    (i = .txlen ∧ ∃ n, 14 ≤ n ∧ n ≤ s.frameCap ∧ n < 65550 ∧ t = { s with txlen := BitVec.ofNat 16 n }) := by
  have hrep : ∀ {u : State}, repairHeader u = .next t →
      ∃ bs m, FbUpdate u.fb m ∧ t = recordChecksum (cksum bs) { u with fb := m } := by
    intro u hu
    rcases repairHeader_cases u with ⟨h₁, h₂, -, -, -, -, hok⟩ | ⟨i, -, hbad⟩
    · rw [hok] at hu
      cases hu
      exact ⟨_, _, (FbUpdate.memWrite_checksum _ _).trans (FbUpdate.memWrite_checksum _ _), rfl⟩
    · rw [hbad] at hu; cases hu
  cases i with
  | nop => cases h; exact .inr (.inl ⟨rfl, rfl⟩)
  | csum =>
    rcases execCsum_cases s with ⟨-, hr⟩ | ⟨-, bs, -, -, hr⟩ | ⟨-, j, -, -, -, hr⟩ <;>
      rw [exec, hr] at h <;> cases h
    · exact .inl ⟨_, rfl⟩
    · exact .inr (.inr (.inl ⟨rfl, bs, rfl⟩))
  | repair =>
    obtain ⟨bs, m, hu, rfl⟩ := hrep h
    exact .inr (.inr (.inr (.inl ⟨.inl rfl, bs, m, hu, rfl⟩)))
  | patch sel r =>
    cases hf : fieldOf sel with
    | none =>
      rw [exec, execPatch_reserved r s ((fieldOf_eq_none_iff sel).1 hf)] at h
      cases h
      exact .inl ⟨_, rfl⟩
    | some f =>
      cases hp : patchField f (patchValue s) (patchMask s) s.fb with
      | error i => rw [exec, execPatch_error r hf hp] at h; cases h
      | ok m =>
        have hu := patchField_update (fieldOf_inside hf).1 hp
        rw [exec, execPatch_ok r hf hp] at h
        cases r with
        | true =>
          obtain ⟨bs, m', hu', rfl⟩ := hrep h
          exact .inr (.inr (.inr (.inl ⟨.inr ⟨sel, rfl⟩, bs, m', hu.trans hu', rfl⟩)))
        | false =>
          cases h
          exact .inr (.inr (.inr (.inr (.inl ⟨⟨sel, rfl⟩, m, hu, rfl⟩))))
  | txlen =>
    rcases execTxlen_cases s with ⟨hi, lo, -, -, hle, hr⟩ | ⟨hi, lo, -, -, -, hr⟩ | ⟨-, hr⟩ | ⟨-, -, hr⟩ <;>
      rw [exec, hr] at h <;> cases h
    · have h1 := hi.isLt
      have h2 := lo.isLt
      exact .inr (.inr (.inr (.inr (.inr ⟨rfl, _, by omega, hle, by omega, rfl⟩))))
    · exact .inl ⟨_, rfl⟩

/-- A command that stops stops with UninitRead at an unwritten byte (70_reset_and_hazards.md R174). -/
theorem exec_fault_cases {i : Instr} {s : State} {e : Fault} (h : exec i s = .fault e) :
    ∃ a, e = .uninitRead a ∧ s.fb.written a = false := by
  have hrep : ∀ {u : State}, repairHeader u = .fault e → ∃ a, e = .uninitRead a ∧ u.fb.written a = false := by
    intro u hu
    rcases repairHeader_cases u with ⟨h₁, h₂, -, -, -, -, hok⟩ | ⟨a, ha, hbad⟩
    · rw [hok] at hu; cases hu
    · rw [hbad] at hu; cases hu
      obtain ⟨l₁, l₂, -, -, hw⟩ := (firstUnwritten_eq_some_iff ..).1 ha
      exact ⟨a, rfl, hw⟩
  cases i with
  | nop => cases h
  | csum =>
    rcases execCsum_cases s with ⟨-, hr⟩ | ⟨-, bs, -, -, hr⟩ | ⟨-, j, -, hnone, -, hr⟩ <;>
      rw [exec, hr] at h <;> cases h
    exact ⟨_, rfl, (not_written_iff ..).2 hnone⟩
  | repair => exact hrep h
  | patch sel r =>
    cases hf : fieldOf sel with
    | none => rw [exec, execPatch_reserved r s ((fieldOf_eq_none_iff sel).1 hf)] at h; cases h
    | some f =>
      rcases patchField_cases f (patchValue s) (patchMask s) s.fb with
        ⟨m, hm, -, -, -⟩ | ⟨j, -, -, -, hw, hm⟩
      · rw [exec, execPatch_ok r hf hm] at h
        cases r with
        | false => cases h
        | true =>
          obtain ⟨a, rfl, ha⟩ := hrep h
          refine ⟨a, rfl, ?_⟩
          have hu := patchField_update (fieldOf_inside hf).1 hm
          by_contra hne
          rw [hu.keeps a (by simpa using hne)] at ha
          cases ha
      · rw [exec, execPatch_error r hf hm] at h
        cases h
        exact ⟨_, rfl, hw⟩
  | txlen =>
    rcases execTxlen_cases s with ⟨hi, lo, -, -, -, hr⟩ | ⟨hi, lo, -, -, -, hr⟩ | ⟨hn, hr⟩ | ⟨-, hn, hr⟩ <;>
      rw [exec, hr] at h <;> cases h
    · exact ⟨_, rfl, (not_written_iff ..).2 hn⟩
    · exact ⟨_, rfl, (not_written_iff ..).2 hn⟩

/-- No command is refused: the engine does not stop on an error (60_exceptions.md R150). -/
theorem exec_not_refused (i : Instr) (s : State) (r : Refusal) : exec i s ≠ .refused r := by
  have hrep : ∀ u : State, repairHeader u ≠ .refused r := by
    intro u hu
    rcases repairHeader_cases u with ⟨h₁, h₂, -, -, -, -, hok⟩ | ⟨a, -, hbad⟩
    · rw [hok] at hu; cases hu
    · rw [hbad] at hu; cases hu
  intro h
  cases i with
  | nop => cases h
  | csum =>
    rcases execCsum_cases s with ⟨-, hr⟩ | ⟨-, bs, -, -, hr⟩ | ⟨-, j, -, -, -, hr⟩ <;>
      rw [exec, hr] at h <;> cases h
  | repair => exact hrep s h
  | patch sel r' =>
    cases hf : fieldOf sel with
    | none => rw [exec, execPatch_reserved r' s ((fieldOf_eq_none_iff sel).1 hf)] at h; cases h
    | some f =>
      cases hp : patchField f (patchValue s) (patchMask s) s.fb with
      | error i => rw [exec, execPatch_error r' hf hp] at h; cases h
      | ok m =>
        rw [exec, execPatch_ok r' hf hp] at h
        cases r' with
        | true => exact hrep _ h
        | false => cases h
  | txlen =>
    rcases execTxlen_cases s with ⟨hi, lo, -, -, -, hr⟩ | ⟨hi, lo, -, -, -, hr⟩ | ⟨-, hr⟩ | ⟨-, -, hr⟩ <;>
      rw [exec, hr] at h <;> cases h

end Sys2Proof.Machine
end

