-- ==== Sys2Proof/Laws/Decode.lean ====
section
/-! SUPPORT. The fields of an encoded command, and the fields of any word as integer arithmetic (30_encoding.md R71). -/

namespace Sys2Proof

theorem opField_toNat (w : Word) : (opField w).toNat = w.toNat / 2 ^ 28 := by
  have := w.isLt
  rw [opField, BitVec.extractLsb'_toNat, Nat.shiftRight_eq_div_pow]
  omega

theorem selField_toNat (w : Word) : (selField w).toNat = w.toNat / 2 ^ 23 % 2 ^ 5 := by
  rw [selField, BitVec.extractLsb'_toNat, Nat.shiftRight_eq_div_pow]

theorem reservedN_toNat (w : Word) : (reservedN w).toNat = w.toNat % 2 ^ 28 := by
  rw [reservedN, BitVec.extractLsb'_toNat, Nat.shiftRight_zero]

theorem reservedP_toNat (w : Word) : (reservedP w).toNat = w.toNat % 2 ^ 22 := by
  rw [reservedP, BitVec.extractLsb'_toNat, Nat.shiftRight_zero]

theorem opField_encodeN : ∀ op : BitVec 4, opField (encodeN op) = op := by decide

theorem reservedN_encodeN : ∀ op : BitVec 4, reservedN (encodeN op) = 0#28 := by decide

theorem opField_encodeP : ∀ (sel : BitVec 5) (r : Bool), opField (encodeP sel r) = 3#4 := by decide

theorem reservedP_encodeP : ∀ (sel : BitVec 5) (r : Bool), reservedP (encodeP sel r) = 0#22 := by decide

theorem selField_encodeP : ∀ (sel : BitVec 5) (r : Bool), selField (encodeP sel r) = sel := by decide

theorem repairBit_encodeP : ∀ (sel : BitVec 5) (r : Bool), repairBit (encodeP sel r) = r := by decide

/-- A word of 32 bits numbered as the opcode table numbers it is that word. -/
theorem tableWord_toNat (w : Word) : tableWord 32 w.toNat = w := by
  apply BitVec.eq_of_toNat_eq
  have := w.isLt
  rw [tableWord, BitVec.toNat_ofNat]
  omega

end Sys2Proof
end

