-- ==== Sys2Proof/Laws/PerInstr.lean ====
section
/-! SUPPORT. Families of statements about every command as syntax, one lemma for each constructor. -/

namespace Sys2Proof.Laws.OpcodeRow

/-- The mask of a command's row in the opcode table (opcode_table.json; 41_patcher.md R121). -/
def mask : Instr → Word
  | .nop => 0xFFFFFFFF#32
  | .csum => 0xFFFFFFFF#32
  | .repair => 0xFFFFFFFF#32
  | .patch _ _ => 0xF03FFFFF#32
  | .txlen => 0xFFFFFFFF#32

/-- The match value of a command's row in the opcode table (opcode_table.json). -/
def fixed : Instr → Word
  | .nop => 0x00000000#32
  | .csum => 0x10000000#32
  | .repair => 0x20000000#32
  | .patch _ _ => 0x30000000#32
  | .txlen => 0x40000000#32

/-- A command's encoding matches its row of the opcode table. -/
def Statement (i : Instr) : Prop := encode i &&& mask i = fixed i

theorem nop : Statement .nop := by unfold Statement; decide

theorem csum : Statement .csum := by unfold Statement; decide

theorem repair : Statement .repair := by unfold Statement; decide

theorem patch (sel : BitVec 5) (r : Bool) : Statement (.patch sel r) := by
  have h : ∀ (sel : BitVec 5) (r : Bool), encodeP sel r &&& 0xF03FFFFF#32 = 0x30000000#32 := by decide
  exact h sel r

theorem txlen : Statement .txlen := by unfold Statement; decide

end Sys2Proof.Laws.OpcodeRow
end

