-- ==== Sys2Proof/Laws/Step.lean ====
section
/-! SUPPORT. What one input and one step can do, said once; later proofs cite these and unfold neither. -/

namespace Sys2Proof.Machine

/-! ### Operand bytes -/

theorem patchValue_toNat (s : State) : (patchValue s).toNat = s.pvalHi.toNat * 2 ^ 32 + s.pvalLo.toNat := by
  rw [patchValue, BitVec.toNat_append, ← Nat.shiftLeft_add_eq_or_of_lt s.pvalLo.isLt, Nat.shiftLeft_eq]

theorem patchMask_toNat (s : State) : (patchMask s).toNat = s.pmskHi.toNat * 2 ^ 32 + s.pmskLo.toNat := by
  rw [patchMask, BitVec.toNat_append, ← Nat.shiftLeft_add_eq_or_of_lt s.pmskLo.isLt, Nat.shiftLeft_eq]

theorem byteOf_eq_div {k : Nat} (v : BitVec k) (n j : Nat) :
    byteOf v n j = BitVec.ofNat 8 (v.toNat / 256 ^ (n - 1 - j) % 256) := by
  apply BitVec.eq_of_toNat_eq
  rw [byteOf, BitVec.extractLsb'_toNat, BitVec.toNat_ofNat, Nat.shiftRight_eq_div_pow, Nat.pow_mul]
  simp

/-- The byte of `PVAL` the loop uses is the one integer arithmetic gives (41_patcher.md R121). -/
theorem byteOf_patchValue (s : State) (n j : Nat) : byteOf (patchValue s) n j = patchValueByte s n j := by
  rw [byteOf_eq_div, patchValue_toNat]; rfl

theorem byteOf_patchMask (s : State) (n j : Nat) : byteOf (patchMask s) n j = patchMaskByte s n j := by
  rw [byteOf_eq_div, patchMask_toNat]; rfl

/-! ### Host accesses -/

/-- A mapped address is the address of its register (20_memory.md R52). -/
theorem regAt_eq_some {a : HostAddr} {r : Reg} (h : regAt a = some r) : a = HostProgram.addrOf r := by
  unfold regAt at h
  split at h <;> cases h
  all_goals
    rename_i ha
    exact BitVec.eq_of_toNat_eq ha

theorem regAt_addrOf (r : Reg) : regAt (HostProgram.addrOf r) = some r := by cases r <;> rfl

theorem regContract_iff (a : HostAddr) : regContract a = true ↔ a.toNat < 0x1000 ∧ a.toNat % 4 = 0 := by
  simp [regContract]

theorem windowContract_iff (a : HostAddr) : windowContract a = true ↔ 0x1000 ≤ a.toNat := by
  simp [windowContract]

/-- Window address 0x1000 + i is offset i below the capacity (20_memory.md R53). -/
theorem windowOffset_of_lt {a : HostAddr} {cap i : Nat} (ha : a.toNat = 0x1000 + i) (hi : i < cap) :
    windowOffset a cap = some i := by
  rw [windowOffset, if_pos (show a.toNat < 0x1000 + cap by omega), ha, Nat.add_sub_cancel_left]

/-- A window address at or above the capacity is unmapped (20_memory.md R56). -/
theorem windowOffset_of_ge {a : HostAddr} {cap : Nat} (h : 0x1000 + cap ≤ a.toNat) :
    windowOffset a cap = none := by
  rw [windowOffset, if_neg (show ¬ a.toNat < 0x1000 + cap by omega)]

/-- What a window address names: an offset below the capacity, or nothing. -/
theorem windowOffset_cases {a : HostAddr} (cap : Nat) (h : 0x1000 ≤ a.toNat) :
    (∃ i, a.toNat = 0x1000 + i ∧ i < cap ∧ windowOffset a cap = some i) ∨
    (0x1000 + cap ≤ a.toNat ∧ windowOffset a cap = none) := by
  obtain ⟨i, hi⟩ : ∃ i, a.toNat = 0x1000 + i := ⟨a.toNat - 0x1000, by omega⟩
  by_cases hlt : i < cap
  · exact .inl ⟨i, hi, hlt, windowOffset_of_lt hi hlt⟩
  · exact .inr ⟨by omega, windowOffset_of_ge (by omega)⟩

/-- A host write to a register's address (20_memory.md R54). -/
theorem hostRegWrite_addrOf (r : Reg) (v : Word) (s : State) :
    hostRegWrite (HostProgram.addrOf r) v s = writeReg r v s := by
  cases r <;> rfl

/-- A host read of a register's address (20_memory.md R54). -/
theorem hostRegRead_addrOf (r : Reg) (s : State) :
    hostRegRead (HostProgram.addrOf r) s = .next (observe (.word (readReg r s)) s) := by
  cases r <;> rfl

theorem step_idle {s : State} (h : s.inputs = []) : step s = .next s := by
  unfold step; rw [h]

/-- A step performs the oldest input. -/
theorem step_cons {s : State} {e : Input} {rest : List Input} (h : s.inputs = e :: rest) :
    step s = perform e { s with inputs := rest } := by
  unfold step; rw [h]

/-- A run of any machine of the host's interface whose first step goes on. -/
theorem core_run_succ (M : Host.Core) {s t : M.State} (h : M.step s = .next t) (k : Nat) :
    M.run (k + 1) s = M.run k t := by
  rw [Host.Core.run, h]

/-- A run of this machine whose first step goes on. -/
theorem run_succ_next {s t : State} (h : step s = .next t) (k : Nat) :
    Host.Core.run Sys2Proof.core (k + 1) s = Host.Core.run Sys2Proof.core k t :=
  core_run_succ Sys2Proof.core h k

theorem run_zero (s : State) : Host.Core.run Sys2Proof.core 0 s = .next s := rfl

/-- Everything an input that goes on can do. -/
theorem perform_next_cases {e : Input} {s t : State} (h : perform e s = .next t) :
    (e = .reset ∧ t = resetMachine s) ∨
    ((∃ a, e = .regRead a ∨ e = .fbRead a) ∧ ∃ v, t = observe v s) ∨
    (((∃ a v, e = .regWrite a v ∧ regAt a = none) ∨ ∃ a b, e = .fbWrite a b) ∧ t = s) ∨
    (∃ r v, e = .regWrite (HostProgram.addrOf r) v ∧ writeReg r v s = .next t) ∨
    (∃ a b i, e = .fbWrite a b ∧ a.toNat = 0x1000 + i ∧ i < s.frameCap ∧ t = { s with fb := s.fb.write i b }) := by
  cases e with
  | regRead a =>
    refine .inr (.inl ⟨⟨a, .inl rfl⟩, ?_⟩)
    simp only [perform, hostRegRead] at h
    split at h
    · split at h <;> cases h <;> exact ⟨_, rfl⟩
    · cases h
  | regWrite a v =>
    simp only [perform, hostRegWrite] at h
    split at h
    · split at h
      · rename_i r hr
        exact .inr (.inr (.inr (.inl ⟨r, v, by rw [← regAt_eq_some hr], h⟩)))
      · rename_i hn
        cases h
        exact .inr (.inr (.inl ⟨.inl ⟨a, v, rfl, hn⟩, rfl⟩))
    · cases h
  | fbRead a =>
    refine .inr (.inl ⟨⟨a, .inr rfl⟩, ?_⟩)
    simp only [perform, hostFbRead] at h
    split at h
    · split at h
      · cases h; exact ⟨_, rfl⟩
      · split at h <;> cases h
        exact ⟨_, rfl⟩
    · cases h
  | fbWrite a b =>
    simp only [perform, hostFbWrite] at h
    split at h
    · rename_i hc
      rcases windowOffset_cases s.frameCap ((windowContract_iff a).1 hc) with ⟨i, hi, hlt, ho⟩ | ⟨-, ho⟩ <;>
        rw [ho] at h <;> cases h
      · exact .inr (.inr (.inr (.inr ⟨a, b, i, rfl, hi, hlt, rfl⟩)))
      · exact .inr (.inr (.inl ⟨.inr ⟨a, b, rfl⟩, rfl⟩))
    · cases h
  | reset => cases h; exact .inl ⟨rfl, rfl⟩

/-- Everything a command word that completes can leave (30_encoding.md R73). -/
theorem runCommand_next_cases {w : Word} {s t : State} (h : runCommand w s = .next t) :
    (∃ k, decode w = .error k ∧ t = raiseError k s) ∨ ∃ i, decode w = .ok i ∧ exec i s = .next t := by
  unfold runCommand at h
  split at h
  · rename_i i hi; exact .inr ⟨i, hi, h⟩
  · rename_i k hk; cases h; exact .inl ⟨k, hk, rfl⟩

/-- No command word is refused (60_exceptions.md R150). -/
theorem runCommand_not_refused (w : Word) (s : State) (r : Refusal) : runCommand w s ≠ .refused r := by
  unfold runCommand
  split
  · exact exec_not_refused _ s r
  · intro h; cases h

/-- No register write is refused. -/
theorem writeReg_not_refused (g : Reg) (v : Word) (s : State) (r : Refusal) : writeReg g v s ≠ .refused r := by
  cases g with
  | cmd => exact runCommand_not_refused v s r
  | _ => intro h; cases h

/-- Everything a step that goes on can do. -/
theorem step_next_cases {s t : State} (h : step s = .next t) :
    (s.inputs = [] ∧ t = s) ∨
    ∃ e rest, s.inputs = e :: rest ∧ perform e { s with inputs := rest } = .next t := by
  cases hi : s.inputs with
  | nil => rw [step_idle hi] at h; cases h; exact .inl ⟨rfl, rfl⟩
  | cons e rest => rw [step_cons hi] at h; exact .inr ⟨e, rest, rfl, h⟩

end Sys2Proof.Machine
end

