-- ==== Sys2Proof/Tests/Slice0.lean ====
section
/-! SUPPORT. Small tests: ill-formed terms, words written out from the encoding tables, vectors of 95_test_vectors.md,
and for each obligation with hypotheses a state and operands that meet them together. -/

namespace Sys2Proof.Tests

open Sys2Proof.Machine

/-! ### Helpers -/

/-- The next state of an outcome, if it is one. -/
def nextOf : Host.Outcome State Fault Refusal → Option State
  | .next t => some t
  | _ => none

/-- The fault of an outcome, if it is one. -/
def faultOf : Host.Outcome State Fault Refusal → Option Fault
  | .fault e => some e
  | _ => none

/-- The refusal of an outcome, if it is one. -/
def refusalOf : Host.Outcome State Fault Refusal → Option Refusal
  | .refused r => some r
  | _ => none

/-- Bytes 14 to 33 of the frame F0 (95_test_vectors.md section 0). -/
def header1 : List Byte := [0x45#8, 0x00#8, 0x00#8, 0x2E#8, 0x12#8, 0x34#8, 0x40#8, 0x00#8, 0x40#8, 0x11#8]

/-- Bytes 26 to 29 and 30 to 33 of F0: the source and the destination address. -/
def header2 : List Byte := [0xC0#8, 0xA8#8, 0x00#8, 0x01#8] ++ [0xC0#8, 0xA8#8, 0x00#8, 0x02#8]

/-- The empty buffer with capacity 64, as the vectors have it. -/
def fresh : State := State.resetWith 64

/-- F0's header in the buffer, checksum field zero. -/
def f0 : State := { fresh with fb := storeBytes [] 14 (header1 ++ [0#8, 0#8] ++ header2) }

/-- F0's header with its checksum A7 37 (V-R1's end state, buffer and results). -/
def f0r : State :=
  { fresh with
    fb := storeBytes [] 14 (header1 ++ [0xA7#8, 0x37#8] ++ header2)
    sum := 0x58C8#16
    result := 0xA737#16 }

/-- F0's header without its checksum field: bytes 24 and 25 unwritten. -/
def f0gap : State := { fresh with fb := storeBytes (storeBytes [] 14 header1) 26 header2 }

/-- A buffer of the least capacity, every byte written. -/
def full : State := { State.resetWith 42 with fb := storeBytes [] 0 (List.replicate 42 0#8) }

/-- `s` with patch value and mask, the high and low registers each. -/
def withPatch (s : State) (vh : Half) (vl : Word) (mh : Half) (ml : Word) : State :=
  { s with pvalHi := vh, pvalLo := vl, pmskHi := mh, pmskLo := ml }

/-- `s` with pending inputs. -/
def withInputs (s : State) (es : List Input) : State := { s with inputs := es }

/-- `s` with operands of CSUM. -/
def withRange (s : State) (off len : Half) : State := { s with off := off, len := len }

/-! ### Well-formedness (30_encoding.md R75) -/

theorem test_wf_accepts_last_selector : (Instr.patch 16#5 true).wf = true := by decide
theorem test_wf_refuses_selector_17 : (Instr.patch 17#5 false).wf = false := by decide
theorem test_wf_refuses_selector_31 : (Instr.patch 31#5 true).wf = false := by decide

/-! ### Words written out bit by bit: OP, then the reserved field or SEL, R and RSV22 (30_encoding.md R70 to R76) -/

theorem test_decode_nop : decode 0b0000_0000000000000000000000000000#32 = .ok .nop := by decide
theorem test_decode_csum : decode 0b0001_0000000000000000000000000000#32 = .ok .csum := by decide
theorem test_decode_repair : decode 0b0010_0000000000000000000000000000#32 = .ok .repair := by decide
theorem test_decode_patch_vihl : decode 0b0011_00011_0_0000000000000000000000#32 = .ok (.patch 3#5 false) := by decide
theorem test_decode_patch_src_r : decode 0b0011_01011_1_0000000000000000000000#32 = .ok (.patch 11#5 true) := by decide
theorem test_decode_txlen : decode 0b0100_0000000000000000000000000000#32 = .ok .txlen := by decide
theorem test_decode_nop_reserved : decode 0x00000001#32 = .error .reservedField := by decide
theorem test_decode_repair_reserved : decode 0x28000000#32 = .error .reservedField := by decide
theorem test_decode_patch_rsv22 : decode 0x3000FFFF#32 = .error .reservedField := by decide
theorem test_decode_patch_sel17 : decode 0x38800000#32 = .error .reservedField := by decide
theorem test_decode_patch_sel31 : decode 0x3FC00000#32 = .error .reservedField := by decide
theorem test_decode_opcode5 : decode 0x50000000#32 = .error .illegalOpcode := by decide
theorem test_decode_opcode15_first : decode 0xFFFFFFFF#32 = .error .illegalOpcode := by decide

/-! ### One step each, from the vectors -/

/-- V-D1. -/
theorem test_nop : nextOf (step (f0r.withFetchWord 32 0x00000000)) = some f0r := by decide

/-- V-C1: sum 58C8, checksum A737. -/
theorem test_csum_header :
    (nextOf (exec .csum (withRange f0 14#16 20#16))).map (fun t => (t.sum, t.result, t.status)) =
      some (0x58C8#16, 0xA737#16, 0#32) := by decide

/-- V-C4: an odd length, the last byte counting as a high byte. -/
theorem test_csum_odd_length :
    (nextOf (exec .csum (withRange f0 14#16 19#16))).map (fun t => (t.sum, t.result)) =
      some (0x58C6#16, 0xA739#16) := by decide

/-- V-R1: the checksum at 24 and 25, high byte first. -/
theorem test_repair :
    (nextOf (exec .repair f0gap)).map (fun t => (t.fb, t.sum, t.result)) =
      some (f0r.fb, 0x58C8#16, 0xA737#16) := by decide

/-- V-R5: the first unwritten header byte. -/
theorem test_repair_uninit : faultOf (exec .repair fresh) = some (.uninitRead 14) := by decide

/-- V-P12: bits 15 to 13 kept, then repaired to A6 14. -/
theorem test_patch_flags_masked :
    (nextOf (exec (.patch 7#5 true) (withPatch f0r 0#16 0x0123#32 0#16 0x1FFF#32))).map
      (fun t => ([20, 21, 24, 25].map t.fb.read, t.sum)) =
      some ([some 0x41#8, some 0x23#8, some 0xA6#8, some 0x14#8], 0x59EB#16) := by decide

/-- V-P14: a six-byte field takes `PVAL_HI` first. -/
theorem test_patch_eth_src :
    (nextOf (exec (.patch 1#5 false) (withPatch f0r 0x0200#16 0x5E10ABCD#32 0xFFFF#16 0xFFFFFFFF#32))).map
      (fun t => ((List.range 6).map fun j => t.fb.read (6 + j))) =
      some [some 0x02#8, some 0x00#8, some 0x5E#8, some 0x10#8, some 0xAB#8, some 0xCD#8] := by decide

/-- V-T2: 50 + 14 is exactly the capacity. -/
theorem test_txlen_at_capacity :
    (nextOf (exec .txlen { fresh with fb := [(16, 0x00#8), (17, 0x32#8)] })).map (fun t => t.txlen) =
      some 0x0040#16 := by decide

/-- V-T5: 0xFFFF + 14 does not wrap; Range. -/
theorem test_txlen_no_wrap :
    (nextOf (exec .txlen { fresh with fb := [(16, 0xFF#8), (17, 0xFF#8)] })).map (fun t => (t.txlen, t.status)) =
      some (0#16, 0x00030400#32) := by decide

/-! ### Accesses and errors, from the vectors -/

/-- V-D17: an illegal opcode alone, its other bits not looked at. -/
theorem test_illegal_opcode :
    (nextOf (step (fresh.withFetchWord 32 0x5FFFFFFF))).map (fun t => t.status) = some 0x00010100#32 := by decide

/-- V-S4: ZERO and reserved bits are not cleared. -/
theorem test_status_write_all_ones : (writeStatus 0xFFFFFFFF#32 { fresh with status := 0x00030401#32 }).status =
    0x00000001#32 := by decide

/-- V-S1: `ECODE` stays while a sticky bit is left. -/
theorem test_status_write_one_bit : (writeStatus 0x00000100#32 { fresh with status := 0x00020700#32 }).status =
    0x00020600#32 := by decide

/-- V-H1, V-H2. -/
theorem test_read_id_cap :
    (nextOf (step (withInputs fresh [.regRead 0x000#17]))).map (fun t => t.observed) = some [.word 0x49503443#32] ∧
    (nextOf (step (withInputs fresh [.regRead 0x004#17]))).map (fun t => t.observed) = some [.word 0x00000040#32] := by
  decide

/-- V-H4: the low half is stored. -/
theorem test_write_off :
    (nextOf (step (withInputs fresh [.regWrite 0x010#17 0xFFFF0010#32]))).map (fun t => t.off) =
      some 0x0010#16 := by decide

/-- V-H7: FB index 64 is unmapped. -/
theorem test_read_above_capacity :
    (nextOf (step (withInputs fresh [.fbRead 0x1040#17]))).map (fun t => t.observed) = some [.byte 0#8] := by decide

/-- V-H8. -/
theorem test_read_unwritten : faultOf (step (withInputs fresh [.fbRead 0x1000#17])) = some (.uninitRead 0) := by decide

/-- V-H9: a 32-bit read of the FB window is refused. -/
theorem test_refused_access :
    refusalOf (step (withInputs fresh [.regRead 0x1000#17])) = some (.outsideContract 0x1000#17 .bits32) := by decide

/-- V-K13: the largest accumulator folds without overflow (fold-only, 40_checksum.md R110). -/
theorem test_fold : fold 0x7FFF7F01#32 = 0xFF00#16 ∧ fold 0xFFFFFFFF#32 = 0xFFFF#16 ∧ fold 0x0002FFFF#32 = 0x0002#16 := by
  decide

/-- V-K5: an odd last byte. -/
theorem test_cksum_odd : cksum [0x01#8, 0x02#8, 0x03#8] = (0x0402#16, 0xFBFD#16) := by decide

/-- The bus words of `SETSRC 0x0A000001` (95_test_vectors.md program P2). -/
theorem test_setsrc_words : HostProgram.setsrc 0x0A000001#32 =
    [.regWrite 0x020#17 0x0A000001#32, .regWrite 0x028#17 0xFFFFFFFF#32, .regWrite 0x008#17 0x35C00000#32] := by decide

/-! ### Hypotheses of the obligations can be met

One theorem for each obligation with hypotheses, named after it; one for each clause where it has several. -/

theorem witness_LayoutTableOffsetsAndWidths : 17 ≤ (17#5).toNat ∧ 17 ≤ (31#5).toNat := by decide

theorem witness_StepRunsTheDecodedCommand :
    (withInputs f0 [.regWrite 0x008#17 0x38400000#32]).inputs = .regWrite 0x008#17 0x38400000#32 :: [] ∧
    decode 0x38400000#32 = .ok (.patch 16#5 true) := by decide

theorem witness_PlacedWordRunsItsCommand : (Instr.patch 16#5 true).wf = true ∧ Instr.csum.wf = true := by decide

theorem witness_IllegalOpcodeRaisesCodeOne :
    (withInputs f0 [.regWrite 0x008#17 0x50000000#32]).inputs = .regWrite 0x008#17 0x50000000#32 :: [] ∧
    5 ≤ (0x50000000#32).toNat / 2 ^ 28 := by decide

theorem witness_ReservedFieldRaisesCodeTwo_patch :
    (withInputs f0 [.regWrite 0x008#17 0x38800000#32]).inputs = .regWrite 0x008#17 0x38800000#32 :: [] ∧
    (0x38800000#32).toNat / 2 ^ 28 = 3 ∧ 17 ≤ (0x38800000#32).toNat / 2 ^ 23 % 2 ^ 5 ∧
    (0x30000001#32).toNat / 2 ^ 28 = 3 ∧ (0x30000001#32).toNat % 2 ^ 22 ≠ 0 := by decide

theorem witness_ReservedFieldRaisesCodeTwo_other :
    (withInputs f0 [.regWrite 0x008#17 0x40000004#32]).inputs = .regWrite 0x008#17 0x40000004#32 :: [] ∧
    (0x40000004#32).toNat / 2 ^ 28 < 5 ∧ (0x40000004#32).toNat / 2 ^ 28 ≠ 3 ∧ (0x40000004#32).toNat % 2 ^ 28 ≠ 0 := by
  decide

theorem witness_IdleEngineHoldsItsState : f0r.inputs = [] := rfl

theorem witness_EveryCommandWordCompletesOnAWrittenBuffer :
    42 ≤ full.frameCap ∧ (∀ x, x < full.frameCap → full.fb.written x = true) ∧
    (withInputs full [.regWrite 0x008#17 0x20000000#32]).inputs = .regWrite 0x008#17 0x20000000#32 :: [] := by decide

theorem witness_NopChangesNothing : (0x00000001#32 : Word) ≠ 0#32 ∧ (0x00000001#32).toNat < 2 ^ 28 ∧ (0x0FFFFFFF#32).toNat < 2 ^ 28 := by decide

theorem witness_CsumRecordsTheChecksum :
    let s := withRange f0 14#16 20#16
    let bs := header1 ++ [0#8, 0#8] ++ header2
    s.off.toNat + s.len.toNat ≤ s.frameCap ∧ bs.length = s.len.toNat ∧ BytesAt s.fb s.off.toNat bs :=
  ⟨by decide, by decide, ((loadBytes_ok_iff _ _ 20 _).1 rfl).2⟩

/-- The empty range at the very end of the buffer (V-C10). -/
theorem witness_CsumRecordsTheChecksum_empty :
    let s := withRange fresh 64#16 0#16
    s.off.toNat + s.len.toNat ≤ s.frameCap ∧ ([] : List Byte).length = s.len.toNat ∧ BytesAt s.fb s.off.toNat [] :=
  ⟨by decide, by decide, bytesAt_nil _ _⟩

theorem witness_CsumOutOfRangeRaisesCodeThree :
    (withRange fresh 62#16 3#16).frameCap < (withRange fresh 62#16 3#16).off.toNat + (withRange fresh 62#16 3#16).len.toNat := by
  decide

/-- V-C12's shape: a readable byte, then the first unwritten one. -/
theorem witness_CsumFaultsExactlyOnUnwrittenBytes :
    let s := withRange f0 33#16 2#16
    s.off.toNat + s.len.toNat ≤ s.frameCap ∧ 1 < s.len.toNat ∧ s.fb.written (s.off.toNat + 1) = false ∧
    ∀ k, k < 1 → s.fb.written (s.off.toNat + k) = true := by decide

theorem witness_CsumDependsOnlyOnItsRange :
    let s := withRange f0 30#16 4#16
    let s' := withRange { State.resetWith 65535 with fb := storeBytes [] 30 [0xC0#8, 0xA8#8, 0#8, 2#8] } 30#16 4#16
    s'.off = s.off ∧ s'.len = s.len ∧ s.off.toNat + s.len.toNat ≤ s.frameCap ∧
    s.off.toNat + s.len.toNat ≤ s'.frameCap ∧
    (∀ x, s.off.toNat ≤ x → x < s.off.toNat + s.len.toNat → s'.fb.read x = s.fb.read x) ∧
    ∃ t, exec .csum s = .next t := by
  refine ⟨rfl, rfl, by decide, by decide, ?_, _, rfl⟩
  intro x h₁ h₂
  have h₁ : 30 ≤ x := h₁
  have h₂ : x < 34 := h₂
  obtain rfl | rfl | rfl | rfl : x = 30 ∨ x = 31 ∨ x = 32 ∨ x = 33 := by omega
  all_goals rfl

theorem witness_AccumulatorIsTheExactSum :
    (List.replicate 65535 (0xFF#8 : Byte)).length ≤ 65535 ∧
    (List.replicate 65534 (0xFF#8 : Byte)).length ≤ 65535 ∧ (List.replicate 65534 (0xFF#8 : Byte)).length % 2 = 0 := by
  simp only [List.length_replicate]; decide

theorem witness_FoldIsTheResidueModulo65535 : (0#32 : Word) = 0#32 ∧ (0xFFFFFFFF#32 : Word) ≠ 0#32 := by decide

theorem witness_EagerFoldingAndAnyOrderAgree :
    ([0xFF#8, 0xFF#8, 0x00#8, 0x01#8] : List Byte).length ≤ 65535 ∧
    ([0x0001#16, 0xFFFF#16] : List Half).Perm (checksumWords [0xFF#8, 0xFF#8, 0x00#8, 0x01#8]) := by decide

theorem witness_RepairStoresTheHeaderChecksum :
    header1.length = 10 ∧ header2.length = 8 ∧ BytesAt f0gap.fb 14 header1 ∧ BytesAt f0gap.fb 26 header2 :=
  ⟨rfl, rfl, ((loadBytes_ok_iff _ _ 10 _).1 rfl).2, ((loadBytes_ok_iff _ _ 8 _).1 rfl).2⟩

theorem witness_RepairFaultsExactlyOnUnwrittenHeader :
    fresh.fb.written 14 = false ∧ ∀ k, 14 ≤ k → k < 14 → k ≠ 24 → k ≠ 25 → fresh.fb.written k = true :=
  ⟨rfl, fun _ h h' => absurd h' (Nat.not_lt.2 h)⟩

theorem witness_RepairIgnoresTheOldChecksum :
    f0gap.fb.wf ∧ (f0gap.fb.write 24 0xBE#8).wf ∧
    ∀ x, x ≠ 24 → x ≠ 25 → (f0gap.fb.write 24 0xBE#8).read x = f0gap.fb.read x :=
  ⟨by decide, by decide, fun x h _ => read_write_ne _ _ h⟩

theorem witness_RepairTwiceIsRepairOnce : f0.fb.wf ∧ ∃ t, exec .repair f0 = .next t := ⟨by decide, _, rfl⟩

theorem witness_VerificationIdentity_repair : 42 ≤ f0gap.frameCap ∧ ∃ t, exec .repair f0gap = .next t :=
  ⟨by decide, _, rfl⟩

theorem witness_VerificationIdentity_by_hand :
    let s := withRange f0 14#16 20#16
    42 ≤ s.frameCap ∧ s.off = 14#16 ∧ s.len = 20#16 ∧ s.fb.read 24 = some 0#8 ∧ s.fb.read 25 = some 0#8 ∧
    ∃ t, exec .csum s = .next t := ⟨by decide, rfl, rfl, rfl, rfl, _, rfl⟩

/-- A two-byte field with one mask byte partial, and the last field, unwritten, with a full mask. -/
theorem witness_PatchWritesTheMaskedField :
    fieldOf 7#5 = some ⟨20, 2⟩ ∧
    PatchReady (withPatch f0 0#16 0x0123#32 0#16 0x1FFF#32) ⟨20, 2⟩ ∧
    fieldOf 16#5 = some ⟨40, 2⟩ ∧
    PatchReady (withPatch f0 0#16 0x1234#32 0#16 0xFFFF#32) ⟨40, 2⟩ := by
  simp only [PatchReady, PartialMask]; decide

theorem witness_PatchFaultsExactlyOnUnwrittenMaskedBytes :
    let s := withPatch fresh 0#16 0x40#32 0#16 0x0F#32
    fieldOf 8#5 = some ⟨22, 1⟩ ∧ PartialMask (patchMaskByte s 1 0) ∧ s.fb.written 22 = false ∧
    exec (.patch 8#5 false) s = .fault (.uninitRead 22) := by
  simp only [PartialMask]; exact ⟨by decide, by decide, rfl, rfl⟩

theorem witness_PatchReservedSelectorRaisesCodeTwo : 17 ≤ (17#5).toNat := by decide

theorem witness_PatchWithRepairIsPatchThenRepair_next :
    (11#5).toNat < 17 ∧ ∃ t, exec (.patch 11#5 false) f0r = .next t := ⟨by decide, _, rfl⟩

theorem witness_PatchWithRepairIsPatchThenRepair_fault :
    (8#5).toNat < 17 ∧ ∃ e, exec (.patch 8#5 false) (withPatch fresh 0#16 0x40#32 0#16 0x0F#32) = .fault e :=
  ⟨by decide, _, rfl⟩

theorem witness_PatchWithRepairCompletes :
    let s := withPatch f0gap 0xABCD#16 0x0A000001#32 0xFFFF#16 0xFFFFFFFF#32
    fieldOf 11#5 = some ⟨26, 4⟩ ∧ PatchReady s ⟨26, 4⟩ ∧
    ∀ x, 14 ≤ x → x < 34 → x ≠ 24 → x ≠ 25 → (afterPatch s ⟨26, 4⟩ x).isSome := by
  refine ⟨by decide, by simp only [PatchReady, PartialMask]; decide, ?_⟩
  have h : ∀ x, x < 34 → 14 ≤ x → x ≠ 24 → x ≠ 25 →
      (afterPatch (withPatch f0gap 0xABCD#16 0x0A000001#32 0xFFFF#16 0xFFFFFFFF#32) ⟨26, 4⟩ x).isSome := by
    decide
  exact fun x h₁ h₂ => h x h₂ h₁

/-- For REPAIR: the state compared is the next state itself, with the operands set. -/
theorem witness_MutationThenRepairVerifies_repair :
    ∃ t u : State, exec .repair f0 = .next t ∧ (∀ x, 14 ≤ x → x < 34 → u.fb.read x = t.fb.read x) ∧
      u.off = 14#16 ∧ u.len = 20#16 ∧ 42 ≤ u.frameCap :=
  ⟨_, withRange _ 14#16 20#16, rfl, fun _ _ _ => rfl, rfl, rfl, by decide⟩

theorem witness_MutationThenRepairVerifies_patch :
    (16#5).toNat < 17 ∧ ∃ t u : State, exec (.patch 16#5 true) f0 = .next t ∧
      (∀ x, 14 ≤ x → x < 34 → u.fb.read x = t.fb.read x) ∧ u.off = 14#16 ∧ u.len = 20#16 ∧ 42 ≤ u.frameCap :=
  ⟨by decide, _, withRange _ 14#16 20#16, rfl, fun _ _ _ => rfl, rfl, rfl, by decide⟩

theorem witness_PatchTwiceIsPatchOnce :
    let s := withPatch f0 0#16 0xB8#32 0#16 0xFC#32
    (4#5).toNat < 17 ∧ s.fb.wf ∧ ∃ t, exec (.patch 4#5 false) s = .next t := ⟨by decide, by decide, _, rfl⟩

theorem witness_PatchesOfDifferentFieldsCommute :
    let s := withPatch f0 0#16 0xB8#32 0#16 0xFC#32
    (4#5).toNat < 17 ∧ (8#5).toNat < 17 ∧ (4#5 : BitVec 5) ≠ 8#5 ∧ s.fb.wf ∧
    ∃ t u, exec (.patch 4#5 false) s = .next t ∧ exec (.patch 8#5 false) t = .next u :=
  ⟨by decide, by decide, by decide, by decide, _, _, rfl, rfl⟩

theorem witness_SetsrcSetsTheSourceAddress :
    let s := withInputs f0gap (HostProgram.setsrc 0x0A000001#32)
    s.inputs = HostProgram.setsrc 0x0A000001#32 ++ [] ∧ header1.length = 10 ∧ (header2.drop 4).length = 4 ∧
    BytesAt s.fb 14 header1 ∧ BytesAt s.fb 30 (header2.drop 4) :=
  ⟨rfl, rfl, rfl, ((loadBytes_ok_iff _ _ 10 _).1 rfl).2, ((loadBytes_ok_iff _ _ 4 _).1 rfl).2⟩

/-- The longest frame that fits (V-T2). -/
theorem witness_TxlenDerivesTheSendLength :
    let s := { fresh with fb := [(16, 0x00#8), (17, 0x32#8)] }
    s.fb.read 16 = some 0x00#8 ∧ s.fb.read 17 = some 0x32#8 ∧
    256 * (0x00#8).toNat + (0x32#8).toNat + 14 ≤ s.frameCap ∧ s.frameCap ≤ 65535 := by decide

/-- One byte more. -/
theorem witness_TxlenOutOfRangeRaisesCodeThree :
    let s := { fresh with fb := [(16, 0x00#8), (17, 0x33#8)] }
    s.fb.read 16 = some 0x00#8 ∧ s.fb.read 17 = some 0x33#8 ∧
    s.frameCap < 256 * (0x00#8).toNat + (0x33#8).toNat + 14 := by decide

theorem witness_TxlenFaultsExactlyOnUnwrittenLength :
    fresh.fb.written 16 = false ∧ Memory.written [(16, 0#8)] 16 = true ∧ Memory.written [(16, 0#8)] 17 = false := by
  decide

theorem witness_RaisingAnErrorTouchesOnlyItsBits :
    (ErrorCode.range, 3) ∈ [(ErrorCode.illegalOpcode, 1), (ErrorCode.reservedField, 2), (ErrorCode.range, 3)] ∧
    (0 : Nat) ≠ 7 + 3 ∧ ¬ (16 ≤ 0 ∧ 0 < 20) := by decide

theorem witness_FailingCommandsArePrecise :
    (∃ t, runCommand 0x50000000#32 f0 = .next t ∧ t.status = 0x00010100#32) ∧
    (∃ t, runCommand 0x20000000#32 f0 = .next t ∧ t.status = 0#32) := ⟨⟨_, rfl, rfl⟩, ⟨_, rfl, rfl⟩⟩

theorem witness_OnlyCsumAndTxlenRaiseRange_csum :
    Instr.csum.wf = true ∧ ∃ t, exec .csum (withRange fresh 64#16 1#16) = .next t ∧
      statusErr t.status ≠ statusErr (withRange fresh 64#16 1#16).status := ⟨rfl, _, rfl, by decide⟩

theorem witness_OnlyCsumAndTxlenRaiseRange_txlen :
    let s := { fresh with fb := [(16, 0x00#8), (17, 0x33#8)] }
    Instr.txlen.wf = true ∧ ∃ t, exec .txlen s = .next t ∧ statusEcode t.status ≠ statusEcode s.status :=
  ⟨rfl, _, rfl, by decide⟩

theorem witness_StatusWriteClearsWrittenOnes :
    let es : List Input := [.regWrite 0x00C#17 0x00000100#32, .regWrite 0x00C#17 0x00000600#32]
    let s := { withInputs fresh es with status := 0x00020700#32 }
    s.inputs = .regWrite 0x00C#17 0x00000100#32 :: [.regWrite 0x00C#17 0x00000600#32] ∧ s.status = 0x00020700#32 ∧
    s.inputs = .regWrite 0x00C#17 0x00000100#32 :: .regWrite 0x00C#17 0x00000600#32 :: [] := ⟨rfl, rfl, rfl⟩

theorem witness_ErrorBitsAreSticky_reset :
    let s := { withInputs fresh [.reset] with status := 0x00030400#32 }
    10 ∈ [8, 9, 10] ∧ s.status.getLsbD 10 = true ∧ ∃ t, step s = .next t ∧ t.status.getLsbD 10 = false :=
  ⟨by decide, rfl, _, rfl, rfl⟩

theorem witness_ErrorBitsAreSticky_write :
    let s := { withInputs fresh [.regWrite 0x00C#17 0x00000100#32] with status := 0x00010100#32 }
    8 ∈ [8, 9, 10] ∧ s.status.getLsbD 8 = true ∧ ∃ t, step s = .next t ∧ t.status.getLsbD 8 = false :=
  ⟨by decide, rfl, _, rfl, by decide⟩

theorem witness_EcodeKeepsTheLatestError_reset :
    let s := { withInputs fresh [.reset] with status := 0x00030400#32 }
    ∃ t, step s = .next t ∧ statusEcode t.status ≠ statusEcode s.status := ⟨_, rfl, by decide⟩

theorem witness_EcodeKeepsTheLatestError_write :
    let s := { withInputs fresh [.regWrite 0x00C#17 0x00000400#32] with status := 0x00030400#32 }
    ∃ t, step s = .next t ∧ statusEcode t.status ≠ statusEcode s.status := ⟨_, rfl, by decide⟩

theorem witness_EcodeKeepsTheLatestError_command :
    let s := withInputs fresh [.regWrite 0x008#17 0x00000001#32]
    ∃ t, step s = .next t ∧ statusEcode t.status ≠ statusEcode s.status := ⟨_, rfl, by decide⟩

/-- One of the commands allowed, CSUM, from reset; and the other case, reset. -/
theorem witness_ChecksumResultsOnlyFromChecksumCommands :
    (∃ t, step (withInputs fresh [.regWrite 0x008#17 0x10000000#32]) = .next t ∧ t.result ≠ fresh.result) ∧
    (∃ t, step (withInputs f0r [.reset]) = .next t ∧ t.sum ≠ f0r.sum) := ⟨⟨_, rfl, by decide⟩, ⟨_, rfl, by decide⟩⟩

theorem witness_SendLengthOnlyFromTxlen :
    (∃ t, step (withInputs f0 [.regWrite 0x008#17 0x40000000#32]) = .next t ∧ t.txlen ≠ f0.txlen) ∧
    (∃ t, step (withInputs { fresh with txlen := 60#16 } [.reset]) = .next t ∧ t.txlen ≠ 60#16) :=
  ⟨⟨_, rfl, by decide⟩, ⟨_, rfl, by decide⟩⟩

/-- Each operand register can change. -/
theorem witness_OperandRegistersOnlyFromHostWrites :
    (nextOf (step (withInputs fresh [.regWrite 0x010#17 1#32]))).map (fun t => t.off) ≠ some fresh.off ∧
    (nextOf (step (withInputs fresh [.regWrite 0x014#17 1#32]))).map (fun t => t.len) ≠ some fresh.len ∧
    (nextOf (step (withInputs fresh [.regWrite 0x020#17 1#32]))).map (fun t => t.pvalLo) ≠ some fresh.pvalLo ∧
    (nextOf (step (withInputs fresh [.regWrite 0x024#17 1#32]))).map (fun t => t.pvalHi) ≠ some fresh.pvalHi ∧
    (nextOf (step (withInputs fresh [.regWrite 0x028#17 1#32]))).map (fun t => t.pmskLo) ≠ some fresh.pmskLo ∧
    (nextOf (step (withInputs fresh [.regWrite 0x02C#17 1#32]))).map (fun t => t.pmskHi) ≠ some fresh.pmskHi ∧
    (nextOf (step (withInputs fresh [.regWrite 0x02C#17 1#32]))).isSome = true := by decide

theorem witness_FrameBufferWriters_host_and_reset :
    (∃ t, step (withInputs fresh [.fbWrite 0x103F#17 7#8]) = .next t ∧ t.fb.read 63 ≠ fresh.fb.read 63) ∧
    (∃ t, step (withInputs f0 [.reset]) = .next t ∧ t.fb.read 14 ≠ f0.fb.read 14) :=
  ⟨⟨_, rfl, by decide⟩, ⟨_, rfl, by decide⟩⟩

theorem witness_FrameBufferWriters_repair_and_patch :
    (∃ t, step (withInputs f0 [.regWrite 0x008#17 0x20000000#32]) = .next t ∧ t.fb.read 25 ≠ f0.fb.read 25) ∧
    (∃ t, step (withInputs (withPatch f0 0#16 1#32 0#16 0xFFFF#32) [.regWrite 0x008#17 0x38000000#32]) = .next t ∧
      t.fb.read 41 ≠ f0.fb.read 41) := ⟨⟨_, rfl, by decide⟩, ⟨_, rfl, by decide⟩⟩

theorem witness_WrittenMarksStaySet :
    f0.fb.written 33 = true ∧ (∃ t, step (withInputs f0 [.reset]) = .next t) ∧
    ∃ t, step (withInputs f0 [.regWrite 0x008#17 0x20000000#32]) = .next t := ⟨rfl, ⟨_, rfl⟩, ⟨_, rfl⟩⟩

theorem witness_HostReadsHaveNoSideEffect :
    (∃ t, (withInputs fresh [.regRead 0x00C#17]).inputs = .regRead 0x00C#17 :: [] ∧
      step (withInputs fresh [.regRead 0x00C#17]) = .next t) ∧
    (∃ t, (withInputs f0 [.fbRead 0x100E#17]).inputs = .fbRead 0x100E#17 :: [] ∧
      step (withInputs f0 [.fbRead 0x100E#17]) = .next t) := ⟨⟨_, rfl, rfl⟩, ⟨_, rfl, rfl⟩⟩

/-- The last register of the map; the rows name different addresses, so no two give one address two values. -/
theorem witness_RegisterReadsReturnTheirValues :
    (withInputs f0r [.regRead 0x030#17]).inputs = .regRead 0x030#17 :: [] ∧
    [0x000#17, 0x004#17, 0x008#17, 0x00C#17, 0x010#17, 0x014#17, 0x018#17, 0x01C#17, 0x020#17, 0x024#17, 0x028#17,
      0x02C#17, 0x030#17].Nodup := by decide

theorem witness_RegisterWritesStoreOrAreIgnored :
    (withInputs f0r [.regWrite 0x02C#17 0xFFFF1234#32]).inputs = .regWrite 0x02C#17 0xFFFF1234#32 :: [] ∧
    (withInputs f0r [.regWrite 0x018#17 0x1234#32]).inputs = .regWrite 0x018#17 0x1234#32 :: [] := ⟨rfl, rfl⟩

/-- Both ends of both unmapped regions. -/
theorem witness_UnmappedAddressesReadZeroAndIgnoreWrites :
    (0x034 ≤ (0x034#17).toNat ∧ (0x034#17).toNat ≤ 0xFFC ∧ (0x034#17).toNat % 4 = 0) ∧
    (0x034 ≤ (0xFFC#17).toNat ∧ (0xFFC#17).toNat ≤ 0xFFC ∧ (0xFFC#17).toNat % 4 = 0) ∧
    0x1000 + fresh.frameCap ≤ (0x1040#17).toNat ∧ 0x1000 + fresh.frameCap ≤ (0x1FFFF#17).toNat ∧
    (withInputs fresh [.regRead 0x034#17]).inputs = .regRead 0x034#17 :: [] ∧
    (withInputs fresh [.regWrite 0xFFC#17 1#32]).inputs = .regWrite 0xFFC#17 1#32 :: [] ∧
    (withInputs fresh [.fbRead 0x1040#17]).inputs = .fbRead 0x1040#17 :: [] := by decide

theorem witness_RefusedExactlyOutsideTheContract :
    (withInputs fresh [.regRead 0x1000#17]).inputs = .regRead 0x1000#17 :: [] ∧
    ¬ ((0x1000#17).toNat < 0x1000 ∧ (0x1000#17).toNat % 4 = 0) ∧
    ¬ ((0x002#17).toNat < 0x1000 ∧ (0x002#17).toNat % 4 = 0) ∧ (0xFFF#17).toNat < 0x1000 := by decide

/-- The last byte of the window: written, read where it stands, read where it does not. -/
theorem witness_WindowAccessesReachTheirByte :
    (0x103F#17).toNat = 0x1000 + 63 ∧ 63 < fresh.frameCap ∧
    (withInputs fresh [.fbWrite 0x103F#17 7#8]).inputs = .fbWrite 0x103F#17 7#8 :: [] ∧
    (withInputs fresh [.fbRead 0x103F#17]).inputs = .fbRead 0x103F#17 :: [] ∧ fresh.fb.read 63 = none ∧
    Memory.read [(63, 7#8)] 63 = some 7#8 := by decide

theorem witness_EqualByteWritesAreIdempotent :
    ∃ t, step (withInputs fresh [.fbWrite 0x1000#17 7#8, .fbWrite 0x1000#17 7#8]) = .next t := ⟨_, rfl⟩

theorem witness_ResetGivesTheResetValues :
    (withInputs f0r [.reset]).inputs = .reset :: [] ∧ ∃ t, step (withInputs f0r [.reset]) = .next t := ⟨rfl, _, rfl⟩

theorem witness_ResetCompletes : (withInputs f0r [.reset]).inputs = .reset :: [] := rfl

/-- The state of the witness below: a capacity, and one command pending. -/
def pendingCsum (cap : Nat) : State := withInputs (State.resetWith cap) [.regWrite 0x008#17 0x10000000#32]

theorem pendingCsum_inv (cap : Nat) (h₁ : 42 ≤ cap) (h₂ : cap ≤ 65535) : (pendingCsum cap).Inv where
  capMin := h₁
  capMax := h₂
  fbWf := List.Pairwise.nil
  fbInside _ h := by cases h
  statusReserved := by show 0#32 &&& ~~~0x000F0701#32 = 0#32; decide
  ecodeZero := by show statusErr 0#32 = 0#3 ↔ statusEcode 0#32 = 0#4; decide
  ecodeMax := by show (statusEcode 0#32).toNat ≤ 3; decide
  checksum := .inr ⟨rfl, rfl, by show statusZero 0#32 = false; decide⟩
  txlen := .inl rfl

/-- The least and the largest capacity meet the invariant, and a step from there completes. -/
theorem witness_EveryStepKeepsTheInvariant :
    (pendingCsum 42).Inv ∧ (pendingCsum 65535).Inv ∧ ∃ t, step (pendingCsum 42) = .next t :=
  ⟨pendingCsum_inv 42 (by decide) (by decide), pendingCsum_inv 65535 (by decide) (by decide), _, rfl⟩

end Sys2Proof.Tests
end

section
/-! SUPPORT. The invariant of the engine's states, kept update by update, and the two statements about it. -/

namespace Sys2Proof.Machine

/-! ### `STATUS` -/

/-- What the invariant says of `STATUS` alone (10_state.md R27, R30). -/
structure StatusOk (st : Word) : Prop where
  reserved : st &&& ~~~0x000F0701#32 = 0#32
  ecodeZero : statusErr st = 0#3 ↔ statusEcode st = 0#4
  ecodeMax : (statusEcode st).toNat ≤ 3

theorem State.Inv.statusOk {s : State} (h : s.Inv) : StatusOk s.status :=
  ⟨h.statusReserved, h.ecodeZero, h.ecodeMax⟩

/-- Reserved bits stay 0 if every new 1 lies in the mask of the defined bits. -/
theorem reserved_of_getLsbD {st st' : Word} (h : st &&& ~~~0x000F0701#32 = 0#32)
    (hbits : ∀ i, st'.getLsbD i = true → st.getLsbD i = true ∨ (0x000F0701#32).getLsbD i = true) :
    st' &&& ~~~0x000F0701#32 = 0#32 := by
  apply word_ext
  intro i hi
  have hst := congrArg (·.getLsbD i) h
  have hbit := hbits i
  simp only [BitVec.getLsbD_and, BitVec.getLsbD_not, hi, decide_true, Bool.true_and, BitVec.getLsbD_zero] at hst ⊢
  cases hm : (0x000F0701#32).getLsbD i <;> simp_all

/-- The bits an error may set are defined bits of `STATUS`: its sticky bit and those of `ECODE` (R27). -/
theorem defined_of_errorBit (k : ErrorCode) {i : Nat} (h : (16 ≤ i ∧ i < 20) ∨ i = 7 + errorNumber k) :
    (0x000F0701#32).getLsbD i = true := by
  rcases h with ⟨hlo, hhi⟩ | rfl
  · interval_cases i <;> rfl
  · cases k <;> rfl

/-- An error leaves some sticky bit set (60_exceptions.md R152). -/
theorem statusErr_afterError_ne_zero (k : ErrorCode) (st : Word) : statusErr (statusAfterError k st) ≠ 0#3 := by
  have hor : ∀ e : BitVec 3, e ||| (1#3 <<< (errorNumber k - 1)) ≠ 0#3 := by cases k <;> decide
  rw [statusErr_afterError]
  exact hor _

theorem StatusOk.afterError {st : Word} (h : StatusOk st) (k : ErrorCode) : StatusOk (statusAfterError k st) where
  reserved := reserved_of_getLsbD h.reserved fun i hi => by
    rw [getLsbD_statusAfterError] at hi
    split at hi
    · next hecode => exact .inr (defined_of_errorBit k (.inl hecode))
    · split at hi
      · next hsticky => exact .inr (defined_of_errorBit k (.inr hsticky))
      · exact .inl hi
  ecodeZero := iff_of_false (statusErr_afterError_ne_zero k st) (by rw [statusEcode_afterError]; cases k <;> decide)
  ecodeMax := by rw [statusEcode_afterError]; cases k <;> decide

theorem StatusOk.afterChecksum {st : Word} (h : StatusOk st) (c : Half) : StatusOk (statusAfterChecksum c st) where
  reserved := reserved_of_getLsbD h.reserved fun i hi => by
    rw [getLsbD_statusAfterChecksum] at hi
    split at hi
    · next hzero => subst hzero; exact .inr rfl
    · exact .inl hi
  ecodeZero := by simpa using h.ecodeZero
  ecodeMax := by simpa using h.ecodeMax

/-- A host write keeps `ECODE` only while a sticky bit is left, which was set before (10_state.md R31). -/
theorem StatusOk.afterWrite {st : Word} (h : StatusOk st) (v : Word) : StatusOk (statusAfterWrite v st) where
  reserved := reserved_of_getLsbD h.reserved fun i hi => by
    rw [getLsbD_statusAfterWrite] at hi
    split at hi
    · exact .inl (Bool.and_eq_true_iff.1 hi).1
    · split at hi
      · cases hi
      · exact .inl hi
  ecodeZero := by
    rw [statusErr_afterWrite, statusEcode_afterWrite]
    split
    · next hclear => exact iff_of_true hclear rfl
    · next hleft =>
      have hset : statusErr st ≠ 0#3 := fun hz => hleft (by rw [hz, BitVec.zero_and])
      exact iff_of_false hleft fun hz => hset (h.ecodeZero.2 hz)
  ecodeMax := by
    rw [statusEcode_afterWrite]
    split
    · decide
    · exact h.ecodeMax

/-! ### Updates of the state -/

/-- The operand registers, the pending inputs and the values read are no part of the invariant. -/
theorem State.Inv.congr {s t : State} (h : s.Inv) (hcap : t.frameCap = s.frameCap := by rfl)
    (hfb : t.fb = s.fb := by rfl) (hstatus : t.status = s.status := by rfl) (hresult : t.result = s.result := by rfl)
    (hsum : t.sum = s.sum := by rfl) (htxlen : t.txlen = s.txlen := by rfl) : t.Inv := by
  obtain ⟨capMin, capMax, fbWf, fbInside, statusReserved, ecodeZero, ecodeMax, checksum, txlen⟩ := h
  constructor <;> simpa only [hcap, hfb, hstatus, hresult, hsum, htxlen]

/-- A new `STATUS` that is sound and keeps ZERO. -/
theorem State.Inv.setStatus {s : State} (h : s.Inv) {st : Word} (hst : StatusOk st)
    (hzero : statusZero st = statusZero s.status) : { s with status := st }.Inv :=
  { h with
    statusReserved := hst.reserved
    ecodeZero := hst.ecodeZero
    ecodeMax := hst.ecodeMax
    checksum := by simpa only [hzero] using h.checksum }

/-- A new buffer in canonical form and inside the capacity. -/
theorem State.Inv.setFb {s : State} (h : s.Inv) {m : Memory} (hwf : m.wf)
    (hinside : ∀ i, m.written i = true → i < s.frameCap) : { s with fb := m }.Inv :=
  { h with fbWf := hwf, fbInside := hinside }

theorem State.Inv.raiseError {s : State} (h : s.Inv) (k : ErrorCode) : (raiseError k s).Inv :=
  h.setStatus (h.statusOk.afterError k) (statusZero_afterError k s.status)

theorem State.Inv.writeStatus {s : State} (h : s.Inv) (v : Word) : (writeStatus v s).Inv :=
  h.setStatus (h.statusOk.afterWrite v) (statusZero_afterWrite v s.status)

/-- Recording a checksum makes `SUM` and `RESULT` complementary and sets ZERO by it (10_state.md R28, R35). -/
theorem State.Inv.recordChecksum {s : State} (h : s.Inv) (bs : List Byte) : (recordChecksum (cksum bs) s).Inv :=
  have hst := h.statusOk.afterChecksum (cksum bs).2
  { h with
    statusReserved := hst.reserved
    ecodeZero := hst.ecodeZero
    ecodeMax := hst.ecodeMax
    checksum := .inl (by simp) }

/-- What REPAIR and PATCH do to `FB` stays inside it: they write below 42, and the capacity is at least 42
(00_scope.md R7). -/
theorem State.Inv.fbUpdate {s : State} (h : s.Inv) {m : Memory} (hu : FbUpdate s.fb m) : { s with fb := m }.Inv :=
  h.setFb (hu.wf h.fbWf) fun i hi => by
    have hcap := h.capMin
    by_cases hpayload : 42 ≤ i
    · exact h.fbInside i (by rwa [Memory.written, ← hu.payload i hpayload])
    · omega

/-- A host write of a byte below the capacity (20_memory.md R55). -/
theorem State.Inv.writeByte {s : State} (h : s.Inv) {i : Nat} (hi : i < s.frameCap) (b : Byte) :
    { s with fb := s.fb.write i b }.Inv :=
  h.setFb (write_wf h.fbWf i b) fun x hx => by
    rw [written_write, Bool.or_eq_true, decide_eq_true_iff] at hx
    rcases hx with rfl | hx
    · exact hi
    · exact h.fbInside x hx

/-- A send length within the capacity fits `TXLEN` (42_control.md R141). -/
theorem State.Inv.setTxlen {s : State} (h : s.Inv) {n : Nat} (hmin : 14 ≤ n) (hmax : n ≤ s.frameCap) :
    { s with txlen := BitVec.ofNat 16 n }.Inv :=
  { h with
    txlen := .inr (by
      have hcap := h.capMax
      rw [BitVec.toNat_ofNat, Nat.mod_eq_of_lt (by omega)]
      exact ⟨hmin, hmax⟩) }

/-- The state after reset meets the invariant at every capacity in range (00_scope.md R7). -/
theorem inv_resetWith {cap : Nat} (hmin : 42 ≤ cap) (hmax : cap ≤ 65535) : (State.resetWith cap).Inv where
  capMin := hmin
  capMax := hmax
  fbWf := List.Pairwise.nil
  fbInside i hi := by simp [Memory.written] at hi
  statusReserved := BitVec.zero_and
  ecodeZero := by rw [resetWith_status]; decide
  ecodeMax := by rw [resetWith_status]; decide
  checksum := .inr ⟨rfl, rfl, by rw [resetWith_status]; decide⟩
  txlen := .inl rfl

theorem frameCap_inRange : 42 ≤ Config.frameCap ∧ Config.frameCap ≤ 65535 := by
  have hlt := Config.frameCapAboveMin.isLt
  simp only [Config.frameCap, Config.frameCapMin]
  omega

theorem State.Inv.resetMachine {s : State} (h : s.Inv) : (resetMachine s).Inv :=
  (inv_resetWith h.capMin h.capMax).congr

/-! ### Commands, inputs and steps -/

theorem exec_keeps_inv {i : Instr} {s t : State} (hinv : s.Inv) (h : exec i s = .next t) : t.Inv := by
  rcases exec_next_cases h with ⟨k, rfl⟩ | ⟨-, rfl⟩ | ⟨-, bs, rfl⟩ | ⟨-, bs, m, hu, rfl⟩ | ⟨-, m, hu, rfl⟩ |
    ⟨-, n, hmin, hmax, -, rfl⟩
  · exact hinv.raiseError k
  · exact hinv
  · exact hinv.recordChecksum bs
  · exact (hinv.fbUpdate hu).recordChecksum bs
  · exact hinv.fbUpdate hu
  · exact hinv.setTxlen hmin hmax

theorem runCommand_keeps_inv {w : Word} {s t : State} (hinv : s.Inv) (h : runCommand w s = .next t) : t.Inv := by
  rcases runCommand_next_cases h with ⟨k, -, rfl⟩ | ⟨i, -, hexec⟩
  · exact hinv.raiseError k
  · exact exec_keeps_inv hinv hexec

/-- A register write runs a command, clears sticky bits, sets an operand register or is ignored (20_memory.md R52). -/
theorem writeReg_keeps_inv {r : Reg} {v : Word} {s t : State} (hinv : s.Inv) (h : writeReg r v s = .next t) :
    t.Inv := by
  cases r with
  | cmd => exact runCommand_keeps_inv hinv h
  | status => cases h; exact hinv.writeStatus v
  | _ => cases h; exact hinv.congr

theorem perform_keeps_inv {e : Input} {s t : State} (hinv : s.Inv) (h : perform e s = .next t) : t.Inv := by
  rcases perform_next_cases h with ⟨-, rfl⟩ | ⟨-, v, rfl⟩ | ⟨-, rfl⟩ | ⟨r, v, -, hwrite⟩ | ⟨a, b, i, -, -, hi, rfl⟩
  · exact hinv.resetMachine
  · exact hinv.congr
  · exact hinv
  · exact writeReg_keeps_inv hinv hwrite
  · exact hinv.writeByte hi b

theorem step_keeps_inv {s t : State} (hinv : s.Inv) (h : step s = .next t) : t.Inv := by
  rcases step_next_cases h with ⟨-, rfl⟩ | ⟨e, rest, -, hperform⟩
  · exact hinv
  · have hrest : { s with inputs := rest }.Inv := hinv.congr
    exact perform_keeps_inv hrest hperform

/-! ### The statements -/

/-- Settles O58: the invariant is kept by every update a step is made of. -/
theorem everyStepKeepsTheInvariant : Obligations.EveryStepKeepsTheInvariant :=
  fun _ _ hinv h => step_keeps_inv hinv h

/-- Settles O57: `FRAME_CAP` lies between 42 and 65535, whichever value it has. -/
theorem resetMeetsTheInvariant : Obligations.ResetMeetsTheInvariant :=
  inv_resetWith frameCap_inRange.1 frameCap_inRange.2

end Sys2Proof.Machine
end

section
/-! SUPPORT. What a step that goes on can do to the state, said once: the writers of each register and of `FB`
(10_state.md R20 to R41), for the statements about who writes what. -/

namespace Sys2Proof.Machine

/-! ### Register accesses -/

/-- What a host write leaves of a register other than `CMD` and `STATUS`: an operand register takes the low bits, a
read-only register is as before (10_state.md R22, R23). -/
def storeReg (r : Reg) (v : Word) (s : State) : State :=
  match r with
  | .off => { s with off := v.extractLsb' 0 16 }
  | .len => { s with len := v.extractLsb' 0 16 }
  | .pvalLo => { s with pvalLo := v }
  | .pvalHi => { s with pvalHi := v.extractLsb' 0 16 }
  | .pmskLo => { s with pmskLo := v }
  | .pmskHi => { s with pmskHi := v.extractLsb' 0 16 }
  | _ => s

theorem writeReg_eq_storeReg {r : Reg} (v : Word) (s : State) (hcmd : r ≠ .cmd) (hstatus : r ≠ .status) :
    writeReg r v s = .next (storeReg r v s) := by
  cases r with
  | cmd => exact absurd rfl hcmd
  | status => exact absurd rfl hstatus
  | _ => rfl

@[simp] theorem storeReg_fb (r : Reg) (v : Word) (s : State) : (storeReg r v s).fb = s.fb := by cases r <;> rfl
@[simp] theorem storeReg_status (r : Reg) (v : Word) (s : State) : (storeReg r v s).status = s.status := by
  cases r <;> rfl
@[simp] theorem storeReg_result (r : Reg) (v : Word) (s : State) : (storeReg r v s).result = s.result := by
  cases r <;> rfl
@[simp] theorem storeReg_sum (r : Reg) (v : Word) (s : State) : (storeReg r v s).sum = s.sum := by cases r <;> rfl
@[simp] theorem storeReg_txlen (r : Reg) (v : Word) (s : State) : (storeReg r v s).txlen = s.txlen := by
  cases r <;> rfl

/-- A step whose input writes a register. -/
theorem step_regWrite (r : Reg) {v : Word} {s : State} {rest : List Input}
    (hin : s.inputs = .regWrite (HostProgram.addrOf r) v :: rest) :
    step s = writeReg r v { s with inputs := rest } := by
  rw [step_cons hin, perform, hostRegWrite_addrOf]

/-- A step whose input reads a register. -/
theorem step_regRead (r : Reg) {s : State} {rest : List Input}
    (hin : s.inputs = .regRead (HostProgram.addrOf r) :: rest) :
    step s = .next (observe (.word (readReg r s)) { s with inputs := rest }) := by
  rw [step_cons hin, perform, hostRegRead_addrOf]
  cases r <;> rfl

/-- A step whose input writes `STATUS` (10_state.md R31). -/
theorem step_statusWrite {v : Word} {s : State} {rest : List Input} (hin : s.inputs = .regWrite 0x00C#17 v :: rest) :
    step s = .next (writeStatus v { s with inputs := rest }) :=
  step_regWrite .status hin

/-! ### Command words -/

/-- A write to `CMD` of a word that decodes runs its command (10_state.md R26). -/
theorem step_command {w : Word} {i : Instr} {s : State} {rest : List Input}
    (hin : s.inputs = .regWrite 0x008#17 w :: rest) (hdec : decode w = .ok i) :
    step s = exec i { s with inputs := rest } := by
  rw [step_regWrite .cmd hin, writeReg, runCommand, hdec]

/-- The decoder reads every well-formed command back from its word (30_encoding.md R71 to R73). -/
theorem decode_encode {i : Instr} (hwf : i.wf = true) : decode (encode i) = .ok i := by
  cases i with
  | patch sel r =>
    have hsel : ¬ fieldCount ≤ sel.toNat := Nat.not_le.2 (of_decide_eq_true hwf)
    simp [encode, decode, opField_encodeP, reservedP_encodeP, selField_encodeP, repairBit_encodeP, hsel]
  | _ => rfl

/-! ### Bytes of the frame buffer -/

/-- The repair sequence writes bytes 24 and 25 alone (40_checksum.md R106). -/
theorem repairHeader_read {s t : State} {x : Nat} (h : repairHeader s = .next t) (h24 : x ≠ 24) (h25 : x ≠ 25) :
    t.fb.read x = s.fb.read x := by
  rcases repairHeader_cases s with ⟨h₁, h₂, -, -, -, -, hok⟩ | ⟨i, -, hbad⟩
  · rw [hok] at h
    cases h
    simp only [recordChecksum_fb, read_storeChecksum, if_neg h24, if_neg h25]
  · rw [hbad] at h; cases h

/-- PATCH writes the bytes of its field, and bytes 24 and 25 with R = 1 (41_patcher.md R121, R122). -/
theorem execPatch_writers {sel : BitVec 5} {r : Bool} {s t : State} {x : Nat} (h : execPatch sel r s = .next t)
    (hx : t.fb.read x ≠ s.fb.read x) :
    ∃ f, fieldOf sel = some f ∧
      ((f.offset ≤ x ∧ x < f.offset + f.width) ∨ (r = true ∧ (x = 24 ∨ x = 25))) := by
  cases hf : fieldOf sel with
  | none =>
    rw [execPatch_reserved r s ((fieldOf_eq_none_iff sel).1 hf)] at h
    cases h
    exact absurd rfl hx
  | some f =>
    refine ⟨f, rfl, ?_⟩
    rcases patchField_cases f (patchValue s) (patchMask s) s.fb with ⟨m, hm, -, -, hout⟩ | ⟨j, -, -, -, -, hm⟩
    · by_contra hno
      have hkept : m.read x = s.fb.read x := hout x (by omega)
      rw [execPatch_ok r hf hm] at h
      cases r with
      | false => cases h; exact hx hkept
      | true =>
        exact hx ((repairHeader_read h (fun h24 => hno (.inr ⟨rfl, .inl h24⟩))
          (fun h25 => hno (.inr ⟨rfl, .inr h25⟩))).trans hkept)
    · rw [execPatch_error r hf hm] at h; cases h

/-- The command words that write `FB`, and the bytes each may write (41_patcher.md R121, R122; 40_checksum.md R106). -/
theorem command_fbWriters {w : Word} {i : Instr} {s t : State} {x : Nat} (hdec : decode w = .ok i)
    (h : exec i s = .next t) (hx : t.fb.read x ≠ s.fb.read x) :
    (decode w = .ok .repair ∧ (x = 24 ∨ x = 25)) ∨
    ∃ sel r f, decode w = .ok (.patch sel r) ∧ fieldOf sel = some f ∧
      ((f.offset ≤ x ∧ x < f.offset + f.width) ∨ (r = true ∧ (x = 24 ∨ x = 25))) := by
  cases i with
  | repair =>
    refine .inl ⟨hdec, ?_⟩
    by_contra hno
    push Not at hno
    exact hx (repairHeader_read h hno.1 hno.2)
  | patch sel r =>
    obtain ⟨f, hf, hxf⟩ := execPatch_writers h hx
    exact .inr ⟨sel, r, f, hdec, hf, hxf⟩
  | _ =>
    rcases exec_next_cases h with ⟨k, rfl⟩ | ⟨-, rfl⟩ | ⟨-, bs, rfl⟩ | ⟨hi, -⟩ | ⟨hi, -⟩ | ⟨-, n, -, -, -, rfl⟩
    case inr.inr.inr.inl => simp at hi
    case inr.inr.inr.inr.inl => simp at hi
    all_goals exact absurd rfl hx

/-! ### Steps -/

/-- What a step from `s` to `t` can be, by what it writes. -/
inductive StepEffect (s t : State) : Prop where
  /-- A reset input. -/
  | reset (rest : List Input) (hin : s.inputs = .reset :: rest)
  /-- No register and no byte is written: the idle step, a host read, an ignored write, NOP. -/
  | unchanged (rest : List Input) (seen : List ReadValue) (ht : t = { s with inputs := rest, observed := seen })
  /-- A host write of a register other than `CMD` and `STATUS`. -/
  | registerWrite (r : Reg) (v : Word) (rest : List Input)
      (hin : s.inputs = .regWrite (HostProgram.addrOf r) v :: rest) (ht : t = storeReg r v { s with inputs := rest })
  /-- A host write of `STATUS`. -/
  | statusWrite (v : Word) (rest : List Input) (hin : s.inputs = .regWrite 0x00C#17 v :: rest)
      (ht : t = writeStatus v { s with inputs := rest })
  /-- A host write of a byte of `FB`. -/
  | byteWrite (a : HostAddr) (b : Byte) (i : Nat) (rest : List Input) (hin : s.inputs = .fbWrite a b :: rest)
      (ha : a.toNat = 0x1000 + i) (hi : i < s.frameCap) (ht : t = { s with inputs := rest, fb := s.fb.write i b })
  /-- A command word that records an error, found by the decoder or by the command. -/
  | error (w : Word) (k : ErrorCode) (rest : List Input) (hin : s.inputs = .regWrite 0x008#17 w :: rest)
      (ht : t = raiseError k { s with inputs := rest })
  /-- CSUM, REPAIR or PATCH with R = 1. -/
  | checksum (w : Word) (i : Instr) (bs : List Byte) (m : Memory) (rest : List Input)
      (hin : s.inputs = .regWrite 0x008#17 w :: rest) (hdec : decode w = .ok i)
      (hi : i = .csum ∨ i = .repair ∨ ∃ sel, i = .patch sel true)
      (hexec : exec i { s with inputs := rest } = .next t) (hu : FbUpdate s.fb m)
      (ht : t = recordChecksum (cksum bs) { s with inputs := rest, fb := m })
  /-- PATCH with R = 0. -/
  | patch (w : Word) (i : Instr) (m : Memory) (rest : List Input) (hin : s.inputs = .regWrite 0x008#17 w :: rest)
      (hdec : decode w = .ok i) (hexec : exec i { s with inputs := rest } = .next t) (hu : FbUpdate s.fb m)
      (ht : t = { s with inputs := rest, fb := m })
  /-- TXLEN. -/
  | txlen (w : Word) (n : Half) (rest : List Input) (hin : s.inputs = .regWrite 0x008#17 w :: rest)
      (hdec : decode w = .ok .txlen) (ht : t = { s with inputs := rest, txlen := n })

theorem stepEffect_of_exec {s t : State} {w : Word} {i : Instr} {rest : List Input}
    (hin : s.inputs = .regWrite 0x008#17 w :: rest) (hdec : decode w = .ok i)
    (hexec : exec i { s with inputs := rest } = .next t) : StepEffect s t := by
  rcases exec_next_cases hexec with ⟨k, ht⟩ | ⟨-, ht⟩ | ⟨hi, bs, ht⟩ | ⟨hi, bs, m, hu, ht⟩ | ⟨-, m, hu, ht⟩ |
    ⟨rfl, n, -, -, -, ht⟩
  · exact .error w k rest hin ht
  · exact .unchanged rest s.observed ht
  · exact .checksum w i bs s.fb rest hin hdec (.inl hi) hexec (.refl _) ht
  · exact .checksum w i bs m rest hin hdec (.inr hi) hexec hu ht
  · exact .patch w i m rest hin hdec hexec hu ht
  · exact .txlen w _ rest hin hdec ht

theorem stepEffect_of_writeReg {s t : State} {r : Reg} {v : Word} {rest : List Input}
    (hin : s.inputs = .regWrite (HostProgram.addrOf r) v :: rest)
    (hwrite : writeReg r v { s with inputs := rest } = .next t) : StepEffect s t := by
  by_cases hcmd : r = .cmd
  · subst hcmd
    rcases runCommand_next_cases hwrite with ⟨k, -, ht⟩ | ⟨i, hdec, hexec⟩
    · exact .error v k rest hin ht
    · exact stepEffect_of_exec hin hdec hexec
  · by_cases hstatus : r = .status
    · subst hstatus
      cases hwrite
      exact .statusWrite v rest hin rfl
    · rw [writeReg_eq_storeReg v _ hcmd hstatus] at hwrite
      cases hwrite
      exact .registerWrite r v rest hin rfl

/-- Every step that goes on has one of these effects. -/
theorem step_effect {s t : State} (h : step s = .next t) : StepEffect s t := by
  rcases step_next_cases h with ⟨-, rfl⟩ | ⟨e, rest, hin, hperform⟩
  · exact .unchanged t.inputs t.observed rfl
  · rcases perform_next_cases hperform with ⟨rfl, -⟩ | ⟨-, v, ht⟩ | ⟨-, ht⟩ | ⟨r, v, rfl, hwrite⟩ |
      ⟨a, b, i, rfl, ha, hi, ht⟩
    · exact .reset rest hin
    · exact .unchanged rest _ ht
    · exact .unchanged rest _ ht
    · exact stepEffect_of_writeReg hin hwrite
    · exact .byteWrite a b i rest hin ha hi ht

end Sys2Proof.Machine
end

section
/-! SUPPORT. The statements about the state: who writes each register, `STATUS` and `FB`, what the host's register
accesses do, and which command a step runs. -/

namespace Sys2Proof.Machine

/-! ### `STATUS` -/

/-- Settles O40: bit by bit from `statusAfterWrite`, and the rule's example as two such steps. -/
theorem statusWriteClearsWrittenOnes : Obligations.StatusWriteClearsWrittenOnes := by
  refine ⟨fun s v rest hin => ?_, fun s rest hst hin => ?_⟩
  · refine ⟨statusAfterWrite v s.status, step_statusWrite hin, statusErr_afterWrite v s.status, fun hclear => ?_,
      fun hleft => ?_, fun i h8 h16 => ?_⟩
    · exact (statusEcode_afterWrite v s.status).trans (if_pos ((statusErr_afterWrite v s.status).symm.trans hclear))
    · exact (statusEcode_afterWrite v s.status).trans
        (if_neg fun hz => hleft ((statusErr_afterWrite v s.status).trans hz))
    · rw [getLsbD_statusAfterWrite, if_neg h8, if_neg fun h => h16 ⟨h.1, h.2.1⟩]
  · have hfirst := step_statusWrite hin
    have hsecond := step_statusWrite (v := 0x600#32) (rest := rest)
      (s := writeStatus 0x100#32 { s with inputs := .regWrite 0x00C#17 0x600#32 :: rest }) rfl
    refine ⟨⟨_, (run_succ_next hfirst 0).trans (run_zero _), ?_⟩,
      _, (run_succ_next hfirst 1).trans ((run_succ_next hsecond 0).trans (run_zero _)), ?_⟩
    · simp only [writeStatus_status, hst]; decide
    · simp only [writeStatus_status, hst]; decide

/-- Settles O41: an error and a checksum clear no error bit, a host write only those written as ones. -/
theorem errorBitsAreSticky : Obligations.ErrorBitsAreSticky := by
  intro s t b hb h hset hclear
  have hb8 : 8 ≤ b ∧ b < 11 := by simp at hb; omega
  cases step_effect h with
  | reset rest hin => exact .inl ⟨rest, hin⟩
  | statusWrite v rest hin ht =>
    subst ht
    rw [writeStatus_status, getLsbD_statusAfterWrite, if_pos hb8, hset] at hclear
    exact .inr ⟨v, rest, hin, by simpa using hclear⟩
  | error w k rest hin ht =>
    subst ht
    rw [raiseError_status, getLsbD_statusAfterError, if_neg (by omega), hset, ite_self] at hclear
    cases hclear
  | checksum w i bs m rest hin hdec hi hexec hu ht =>
    subst ht
    rw [recordChecksum_status, getLsbD_statusAfterChecksum, if_neg (by omega), hset] at hclear
    cases hclear
  | _ => subst_vars; simp [hset] at hclear

theorem errorNumber_mem (k : ErrorCode) : errorNumber k ∈ [1, 2, 3] := by cases k <;> decide

/-- Settles O42: a checksum keeps `ECODE`, a host write keeps it or clears it with the last error bit. -/
theorem ecodeKeepsTheLatestError : Obligations.EcodeKeepsTheLatestError := by
  intro s t h hne
  cases step_effect h with
  | reset rest hin => exact .inl ⟨rest, hin⟩
  | statusWrite v rest hin ht =>
    subst ht
    rw [writeStatus_status, statusEcode_afterWrite] at hne
    split at hne
    · next hclear =>
      refine .inr (.inl ⟨v, rest, hin, ?_, ?_⟩)
      · rw [writeStatus_status, statusErr_afterWrite, hclear]
      · rw [writeStatus_status, statusEcode_afterWrite, if_pos hclear]
    · exact absurd rfl hne
  | error w k rest hin ht =>
    refine .inr (.inr ⟨w, rest, errorNumber k, hin, errorNumber_mem k, ?_⟩)
    rw [ht, raiseError, statusAfterError_eq]
  | _ => subst_vars; simp at hne

/-! ### Who writes what -/

/-- Settles O43: only a recorded checksum writes `SUM`, `RESULT` and ZERO. -/
theorem checksumResultsOnlyFromChecksumCommands : Obligations.ChecksumResultsOnlyFromChecksumCommands := by
  intro s t h hne
  cases step_effect h with
  | reset rest hin => exact .inl ⟨rest, hin⟩
  | checksum w i bs m rest hin hdec hi hexec hu ht =>
    subst ht
    exact .inr ⟨w, i, rest, hin, hdec, hi, by simp, by simp⟩
  | _ => subst_vars; simp at hne

/-- Settles O44, by the effects a step can have. -/
theorem sendLengthOnlyFromTxlen : Obligations.SendLengthOnlyFromTxlen := by
  intro s t h hne
  cases step_effect h with
  | reset rest hin => exact .inl ⟨rest, hin⟩
  | txlen w n rest hin hdec ht => exact .inr ⟨w, rest, hin, hdec⟩
  | _ => subst_vars; simp at hne

/-- Settles O45: only a host write to an operand register writes one, and only that one. -/
theorem operandRegistersOnlyFromHostWrites : Obligations.OperandRegistersOnlyFromHostWrites := by
  intro s t h
  cases step_effect h with
  | reset rest hin => exact .inl ⟨rest, hin⟩
  | registerWrite r v rest hin ht =>
    subst ht
    right
    cases r <;> simp [storeReg, hin, HostProgram.addrOf]
  | _ => subst_vars; simp

/-- Settles O46: a byte write reaches one byte, REPAIR the checksum field, PATCH its field. -/
theorem frameBufferWriters : Obligations.FrameBufferWriters := by
  intro s t x h hne
  cases step_effect h with
  | reset rest hin => exact .inl ⟨rest, hin⟩
  | byteWrite a b i rest hin ha hi ht =>
    subst ht
    by_cases hxi : x = i
    · subst hxi
      exact .inr (.inl ⟨a, b, rest, hin, ha, hi, read_write_same s.fb x b⟩)
    · exact absurd (read_write_ne s.fb b hxi) hne
  | checksum w i bs m rest hin hdec hi hexec hu ht =>
    exact .inr (.inr ⟨w, rest, hin, command_fbWriters hdec hexec hne⟩)
  | patch w i m rest hin hdec hexec hu ht =>
    exact .inr (.inr ⟨w, rest, hin, command_fbWriters hdec hexec hne⟩)
  | _ => subst_vars; simp at hne

/-- Settles O47: REPAIR and PATCH clear no mark (`FbUpdate.keeps`), nor does a byte write. -/
theorem writtenMarksStaySet : Obligations.WrittenMarksStaySet := by
  intro s t x h hx
  cases step_effect h with
  | reset rest hin => exact .inl ⟨rest, hin⟩
  | byteWrite a b i rest hin ha hi ht => subst ht; exact .inr (by simp [written_write, hx])
  | checksum w i bs m rest hin hdec hi hexec hu ht => subst ht; exact .inr (hu.keeps x hx)
  | patch w i m rest hin hdec hexec hu ht => subst ht; exact .inr (hu.keeps x hx)
  | _ => subst_vars; simp [hx]

/-! ### Host accesses -/

/-- Settles O48, by what an input that is a read can do. -/
theorem hostReadsHaveNoSideEffect : Obligations.HostReadsHaveNoSideEffect := by
  intro s t a rest hin h
  obtain ⟨e, he, hread⟩ : ∃ e, s.inputs = e :: rest ∧ (e = .regRead a ∨ e = .fbRead a) :=
    hin.elim (fun hin => ⟨_, hin, .inl rfl⟩) fun hin => ⟨_, hin, .inr rfl⟩
  rw [step_cons he] at h
  rcases perform_next_cases h with ⟨rfl, -⟩ | ⟨-, v, ht⟩ | ⟨⟨a', v, rfl, -⟩ | ⟨a', b, rfl⟩, -⟩ | ⟨r, v, rfl, -⟩ |
    ⟨a', b, i, rfl, -⟩
  case inr.inl => exact ⟨v, ht⟩
  all_goals simp at hread

/-- The registers of the host map, by rising address (20_memory.md R52). -/
def hostRegs : List Reg :=
  [.id, .cap, .cmd, .status, .off, .len, .result, .sum, .pvalLo, .pvalHi, .pmskLo, .pmskHi, .txlen]

/-- Settles O49: the table lists each register's address and its value as a host read sees it. -/
theorem registerReadsReturnTheirValues : Obligations.RegisterReadsReturnTheirValues := by
  intro s a v rest hrow hin
  have hmem : (a, v) ∈ hostRegs.map fun r => (HostProgram.addrOf r, readReg r s) := hrow
  obtain ⟨r, -, heq⟩ := List.mem_map.1 hmem
  cases heq
  exact step_regRead r hin

/-- The operand registers, then the read-only ones (20_memory.md R52). -/
def storedRegs : List Reg := [.off, .len, .pvalLo, .pvalHi, .pmskLo, .pmskHi, .id, .cap, .result, .sum, .txlen]

/-- Settles O50: the table lists each register's address and what a write of it leaves. -/
theorem registerWritesStoreOrAreIgnored : Obligations.RegisterWritesStoreOrAreIgnored := by
  intro s t a v rest hrow hin
  have hmem : (a, t) ∈ storedRegs.map fun r => (HostProgram.addrOf r, storeReg r v { s with inputs := rest }) := hrow
  obtain ⟨r, hr, heq⟩ := List.mem_map.1 hmem
  cases heq
  rw [step_regWrite r hin]
  exact writeReg_eq_storeReg v _ (by rintro rfl; simp [storedRegs] at hr) (by rintro rfl; simp [storedRegs] at hr)

/-! ### Commands -/

/-- Settles O6: the address 0x008 is that of `CMD`, whose write runs the word. -/
theorem stepRunsTheDecodedCommand : Obligations.StepRunsTheDecodedCommand :=
  fun _ _ _ _ hin hdec => step_command hin hdec

/-- Settles O7: the placed word is the command's, and the decoder reads the command back. -/
theorem placedWordRunsItsCommand : Obligations.PlacedWordRunsItsCommand := by
  intro s i hwf
  have hin : (s.withFetchWord 32 (encode i).toNat).inputs = .regWrite 0x008#17 (encode i) :: s.inputs := by
    rw [withFetchWord_inputs, tableWord_toNat]; rfl
  exact step_command hin (decode_encode hwf)

end Sys2Proof.Machine
end

section
/-! SUPPORT. The statements about the host's memory map: which accesses are refused, what an unmapped address does, and
what the FB window reaches (20_memory.md R53 to R56, R62). -/

namespace Sys2Proof.Machine

/-! ### The register block -/

/-- No register lies at or above 0x034 (20_memory.md R52). -/
theorem regAt_eq_none_of_ge {a : HostAddr} (h : 0x034 ≤ a.toNat) : regAt a = none := by
  have hlast : ∀ r, (HostProgram.addrOf r).toNat < 0x034 := by intro r; cases r <;> decide
  cases hr : regAt a with
  | none => rfl
  | some r =>
    have := hlast r
    rw [← regAt_eq_some hr] at this
    omega

theorem hostRegRead_unmapped {a : HostAddr} {s : State} (hc : regContract a = true) (hn : regAt a = none) :
    hostRegRead a s = .next (observe (.word 0#32) s) := by
  rw [hostRegRead, if_pos hc, hn]

theorem hostRegWrite_unmapped {a : HostAddr} {v : Word} {s : State} (hc : regContract a = true) (hn : regAt a = none) :
    hostRegWrite a v s = .next s := by
  rw [hostRegWrite, if_pos hc, hn]

/-- A 32-bit read is refused exactly off the aligned addresses of the register block (20_memory.md R54). -/
theorem hostRegRead_refused_iff (a : HostAddr) (s : State) :
    (∃ r, hostRegRead a s = .refused r) ↔ ¬ (a.toNat < 0x1000 ∧ a.toNat % 4 = 0) := by
  rw [← regContract_iff]
  by_cases hc : regContract a = true
  · cases hr : regAt a with
    | none => simp [hostRegRead_unmapped hc hr, hc]
    | some r => simp [regAt_eq_some hr ▸ hostRegRead_addrOf r s, hc]
  · simp [hostRegRead, hc]

/-- A 32-bit write is refused exactly where a 32-bit read is: no register refuses a value (20_memory.md R54). -/
theorem hostRegWrite_refused_iff (a : HostAddr) (v : Word) (s : State) :
    (∃ r, hostRegWrite a v s = .refused r) ↔ ¬ (a.toNat < 0x1000 ∧ a.toNat % 4 = 0) := by
  rw [← regContract_iff]
  by_cases hc : regContract a = true
  · cases hr : regAt a with
    | none => simp [hostRegWrite_unmapped hc hr, hc]
    | some r => simp [regAt_eq_some hr ▸ hostRegWrite_addrOf r v s, writeReg_not_refused, hc]
  · simp [hostRegWrite, hc]

/-! ### The FB window -/

/-- Where an address lies: below the window, above the buffer's end, or at an offset of the buffer
(20_memory.md R53). -/
theorem hostAddr_cases (a : HostAddr) (cap : Nat) :
    a.toNat < 0x1000 ∨ 0x1000 + cap ≤ a.toNat ∨ ∃ i, a.toNat = 0x1000 + i ∧ i < cap := by
  by_cases hc : 0x1000 ≤ a.toNat
  · rcases windowOffset_cases cap hc with ⟨i, ha, hi, -⟩ | ⟨ha, -⟩
    · exact .inr (.inr ⟨i, ha, hi⟩)
    · exact .inr (.inl ha)
  · exact .inl (by omega)

section
variable {a : HostAddr} {b : Byte} {i : Nat} {s : State}

theorem hostFbRead_below (h : a.toNat < 0x1000) : hostFbRead a s = .refused (.outsideContract a .bits8) :=
  if_neg (by rw [windowContract_iff]; omega)

theorem hostFbRead_unmapped (h : 0x1000 + s.frameCap ≤ a.toNat) :
    hostFbRead a s = .next (observe (.byte 0#8) s) := by
  rw [hostFbRead, if_pos ((windowContract_iff a).2 (by omega)), windowOffset_of_ge h]

theorem hostFbRead_written (ha : a.toNat = 0x1000 + i) (hi : i < s.frameCap) (hb : s.fb.read i = some b) :
    hostFbRead a s = .next (observe (.byte b) s) := by
  simp only [hostFbRead, if_pos ((windowContract_iff a).2 (by omega)), windowOffset_of_lt ha hi, hb]

theorem hostFbRead_unwritten (ha : a.toNat = 0x1000 + i) (hi : i < s.frameCap) (hn : s.fb.read i = none) :
    hostFbRead a s = .fault (.uninitRead i) := by
  simp only [hostFbRead, if_pos ((windowContract_iff a).2 (by omega)), windowOffset_of_lt ha hi, hn]

theorem hostFbWrite_below (h : a.toNat < 0x1000) : hostFbWrite a b s = .refused (.outsideContract a .bits8) :=
  if_neg (by rw [windowContract_iff]; omega)

theorem hostFbWrite_unmapped (h : 0x1000 + s.frameCap ≤ a.toNat) : hostFbWrite a b s = .next s := by
  rw [hostFbWrite, if_pos ((windowContract_iff a).2 (by omega)), windowOffset_of_ge h]

theorem hostFbWrite_mapped (ha : a.toNat = 0x1000 + i) (hi : i < s.frameCap) :
    hostFbWrite a b s = .next { s with fb := s.fb.write i b } := by
  rw [hostFbWrite, if_pos ((windowContract_iff a).2 (by omega)), windowOffset_of_lt ha hi]

end

/-- An 8-bit read is refused exactly below the window: above it the read answers, or faults
(20_memory.md R55). -/
theorem hostFbRead_refused_iff (a : HostAddr) (s : State) :
    (∃ r, hostFbRead a s = .refused r) ↔ a.toNat < 0x1000 := by
  rcases hostAddr_cases a s.frameCap with hlow | hend | ⟨i, ha, hi⟩
  · simp [hostFbRead_below hlow, hlow]
  · have hge : ¬ a.toNat < 0x1000 := by omega
    simp [hostFbRead_unmapped hend, hge]
  · cases hb : s.fb.read i with
    | none => simp [hostFbRead_unwritten ha hi hb, ha]
    | some b => simp [hostFbRead_written ha hi hb, ha]

/-- An 8-bit write is refused exactly below the window (20_memory.md R55). -/
theorem hostFbWrite_refused_iff (a : HostAddr) (b : Byte) (s : State) :
    (∃ r, hostFbWrite a b s = .refused r) ↔ a.toNat < 0x1000 := by
  rcases hostAddr_cases a s.frameCap with hlow | hend | ⟨i, ha, hi⟩
  · simp [hostFbWrite_below hlow, hlow]
  · have hge : ¬ a.toNat < 0x1000 := by omega
    simp [hostFbWrite_unmapped hend, hge]
  · simp [hostFbWrite_mapped ha hi, ha]

/-- A second write of an offset replaces the first, whatever the form of the buffer. -/
theorem write_write_same (m : Memory) (i : Nat) (b c : Byte) : (m.write i b).write i c = m.write i c := by
  induction m with
  | nil => simp [Memory.write]
  | cons p rest ih =>
    obtain ⟨j, d⟩ := p
    rcases Nat.lt_trichotomy i j with hlt | rfl | hgt
    · simp [Memory.write, hlt]
    · simp [Memory.write]
    · simp [Memory.write, hgt.not_gt, hgt.ne', ih]

/-- Everything a byte write that completes can do: nothing above the buffer's end, else store its byte. -/
theorem hostFbWrite_next_cases {a : HostAddr} {b : Byte} {s t : State} (h : hostFbWrite a b s = .next t) :
    (0x1000 + s.frameCap ≤ a.toNat ∧ t = s) ∨
    ∃ i, a.toNat = 0x1000 + i ∧ i < s.frameCap ∧ t = { s with fb := s.fb.write i b } := by
  rcases hostAddr_cases a s.frameCap with hlow | hend | ⟨i, ha, hi⟩
  · rw [hostFbWrite_below hlow] at h; cases h
  · rw [hostFbWrite_unmapped hend] at h; cases h; exact .inl ⟨hend, rfl⟩
  · rw [hostFbWrite_mapped ha hi] at h; cases h; exact .inr ⟨i, ha, hi, rfl⟩

/-! ### The statements -/

/-- Settles O52, by which accesses each of the four host operations refuses; reset is never refused. -/
theorem refusedExactlyOutsideTheContract : Obligations.RefusedExactlyOutsideTheContract := by
  intro s e rest hin
  rw [step_cons hin]
  cases e with
  | regRead a => simpa [perform] using hostRegRead_refused_iff a _
  | regWrite a v => simpa [perform] using hostRegWrite_refused_iff a v _
  | fbRead a => simpa [perform] using hostFbRead_refused_iff a _
  | fbWrite a b => simpa [perform] using hostFbWrite_refused_iff a b _
  | reset => simp [perform]

/-- Settles O53: the write by read after write, the read by whether the byte is written. -/
theorem windowAccessesReachTheirByte : Obligations.WindowAccessesReachTheirByte := by
  intro s a i rest ha hi
  refine ⟨fun b hin => ⟨s.fb.write i b, ?_, read_write_same s.fb i b, fun x hx => read_write_ne s.fb b hx⟩,
    fun b hin hb => ?_, fun hin hn => ?_⟩
  · exact (step_cons hin).trans (hostFbWrite_mapped ha hi)
  · exact (step_cons hin).trans (hostFbRead_written ha hi hb)
  · exact (step_cons hin).trans (hostFbRead_unwritten ha hi hn)

/-- Settles O51: no register lies from 0x034 on, and no byte above the buffer's end. -/
theorem unmappedAddressesReadZeroAndIgnoreWrites : Obligations.UnmappedAddressesReadZeroAndIgnoreWrites := by
  intro s a rest
  refine ⟨fun hlo hhi halign => ?_, fun hend => ⟨fun hin => ?_, fun b hin => ?_⟩⟩
  · have hc : regContract a = true := (regContract_iff a).2 ⟨by omega, halign⟩
    have hn : regAt a = none := regAt_eq_none_of_ge hlo
    exact ⟨fun hin => (step_cons hin).trans (hostRegRead_unmapped hc hn),
      fun v hin => (step_cons hin).trans (hostRegWrite_unmapped hc hn)⟩
  · exact (step_cons hin).trans (hostFbRead_unmapped hend)
  · exact (step_cons hin).trans (hostFbWrite_unmapped hend)

/-- Settles O54: the second write finds the same address mapped or not, and replaces the byte by itself. -/
theorem equalByteWritesAreIdempotent : Obligations.EqualByteWritesAreIdempotent := by
  intro s t a b rest hin h
  have hfirst : hostFbWrite a b { s with inputs := .fbWrite a b :: rest } = .next t := (step_cons hin).symm.trans h
  rcases hostFbWrite_next_cases hfirst with ⟨hend, rfl⟩ | ⟨i, ha, hi, rfl⟩
  · exact (step_cons (e := .fbWrite a b) rfl).trans (hostFbWrite_unmapped hend)
  · refine (step_cons (e := .fbWrite a b) rfl).trans ((hostFbWrite_mapped ha ?_).trans ?_)
    · exact hi
    · rw [write_write_same]

end Sys2Proof.Machine
end

section
/-! SUPPORT. The statements about the encoding: which words are commands, which error any other word raises, and the
field layout table (30_encoding.md R71 to R78). -/

namespace Sys2Proof

/-! ### The parts of a word -/

/-- A word is its opcode over its format N reserved field (30_encoding.md R71). -/
theorem opField_append_reservedN (w : Word) : opField w ++ reservedN w = w :=
  (BitVec.extractLsb'_append_extractLsb'_eq_extractLsb' rfl).trans BitVec.extractLsb'_eq_self

theorem ofBool_repairBit (w : Word) : BitVec.ofBool (repairBit w) = w.extractLsb' 22 1 := by
  apply BitVec.eq_of_getLsbD_eq
  intro i hi
  obtain rfl : i = 0 := by omega
  simp [repairBit]

/-- The low 28 bits of a word are its selector, its repair bit and its format P reserved field (30_encoding.md R71). -/
theorem selField_append_repairBit_append_reservedP (w : Word) :
    selField w ++ (BitVec.ofBool (repairBit w) ++ reservedP w) = reservedN w := by
  rw [ofBool_repairBit]
  have hlow : w.extractLsb' 22 1 ++ reservedP w = w.extractLsb' 0 23 :=
    BitVec.extractLsb'_append_extractLsb'_eq_extractLsb' rfl
  rw [hlow]
  exact BitVec.extractLsb'_append_extractLsb'_eq_extractLsb' rfl

/-- A word without format N reserved bits is the format N word of its opcode. -/
theorem encodeN_opField {w : Word} (h : reservedN w = 0#28) : encodeN (opField w) = w := by
  rw [encodeN, ← h, opField_append_reservedN]

/-- A PATCH word without format P reserved bits is the format P word of its selector and repair bit. -/
theorem encodeP_selField_repairBit {w : Word} (hop : opField w = 3#4) (h : reservedP w = 0#22) :
    encodeP (selField w) (repairBit w) = w := by
  rw [encodeP, ← h, selField_append_repairBit_append_reservedP, ← hop, opField_append_reservedN]

/-! ### What the decoder answers -/

/-- A legal opcode with a nonzero reserved field, or PATCH with a reserved selector, in integer arithmetic on the word
(30_encoding.md R75, R78). -/
def ReservedBitsSet (w : Word) : Prop :=
  (w.toNat / 2 ^ 28 = 3 ∧ (w.toNat % 2 ^ 22 ≠ 0 ∨ 17 ≤ w.toNat / 2 ^ 23 % 2 ^ 5)) ∨
  (w.toNat / 2 ^ 28 ≠ 3 ∧ w.toNat % 2 ^ 28 ≠ 0)

theorem reservedBitsSet_iff (w : Word) :
    ReservedBitsSet w ↔
      (opField w = 3#4 ∧ (reservedP w ≠ 0#22 ∨ fieldCount ≤ (selField w).toNat)) ∨
      (opField w ≠ 3#4 ∧ reservedN w ≠ 0#28) := by
  simp [ReservedBitsSet, ← BitVec.toNat_inj, opField_toNat, selField_toNat, reservedN_toNat, reservedP_toNat]

/-- A word of a legal opcode other than PATCH's, without reserved bits, encodes a command (30_encoding.md R72). -/
theorem exists_encode_of_formatN {w : Word} (hlegal : (opField w).toNat < 5) (hop : opField w ≠ 3#4)
    (hres : reservedN w = 0#28) : ∃ i : Instr, i.wf = true ∧ encode i = w := by
  have hw : encodeN (opField w) = w := encodeN_opField hres
  have hops : ∀ op : BitVec 4, op.toNat < 5 → op ≠ 3#4 → op = 0#4 ∨ op = 1#4 ∨ op = 2#4 ∨ op = 4#4 := by decide
  rcases hops _ hlegal hop with h | h | h | h <;> rw [h] at hw
  · exact ⟨.nop, rfl, hw⟩
  · exact ⟨.csum, rfl, hw⟩
  · exact ⟨.repair, rfl, hw⟩
  · exact ⟨.txlen, rfl, hw⟩

/-- A PATCH word without reserved bits, with a selector of the layout table, encodes a command (30_encoding.md R75). -/
theorem exists_encode_of_formatP {w : Word} (hop : opField w = 3#4) (hres : reservedP w = 0#22)
    (hsel : (selField w).toNat < fieldCount) : ∃ i : Instr, i.wf = true ∧ encode i = w :=
  ⟨.patch (selField w) (repairBit w), decide_eq_true hsel, encodeP_selField_repairBit hop hres⟩

/-- A word of a legal opcode that sets no reserved bits encodes a command. -/
theorem exists_encode_of_not_reservedBitsSet {w : Word} (hlegal : (opField w).toNat < 5) (h : ¬ ReservedBitsSet w) :
    ∃ i : Instr, i.wf = true ∧ encode i = w := by
  rw [reservedBitsSet_iff] at h
  push Not at h
  obtain ⟨hpatch, hother⟩ := h
  by_cases hop : opField w = 3#4
  · obtain ⟨hres, hsel⟩ := hpatch hop
    exact exists_encode_of_formatP hop hres hsel
  · exact exists_encode_of_formatN hlegal hop (hother hop)

/-- Reserved bits under a legal opcode, or a reserved selector, are the decoder's second check (30_encoding.md R73). -/
theorem decode_of_reservedBitsSet {w : Word} (hlegal : (opField w).toNat < 5) (h : ReservedBitsSet w) :
    decode w = .error .reservedField := by
  rcases (reservedBitsSet_iff w).1 h with ⟨hop, hres | hsel⟩ | ⟨hop, hres⟩
  · simp [decode, hop, hres]
  · simp [decode, hop, hsel]
  · simp [decode, hlegal.not_ge, hop, hres]

/-- Everything the decoder can answer, and when (30_encoding.md R73): one of its two errors, or a well-formed command
whose encoding is the word. -/
theorem decode_cases (w : Word) :
    (5 ≤ (opField w).toNat ∧ decode w = .error .illegalOpcode) ∨
    ((opField w).toNat < 5 ∧ ReservedBitsSet w ∧ decode w = .error .reservedField) ∨
    ((opField w).toNat < 5 ∧ ¬ ReservedBitsSet w ∧ ∃ i : Instr, decode w = .ok i ∧ i.wf = true ∧ encode i = w) := by
  by_cases hill : 5 ≤ (opField w).toNat
  · exact .inl ⟨hill, if_pos hill⟩
  · have hlegal : (opField w).toNat < 5 := Nat.not_le.1 hill
    by_cases hset : ReservedBitsSet w
    · exact .inr (.inl ⟨hlegal, hset, decode_of_reservedBitsSet hlegal hset⟩)
    · obtain ⟨i, hwf, rfl⟩ := exists_encode_of_not_reservedBitsSet hlegal hset
      exact .inr (.inr ⟨hlegal, hset, i, Machine.decode_encode hwf, hwf, rfl⟩)

/-- What decodes to a command is the encoding of that command, which is well formed. -/
theorem encode_of_decode {w : Word} {i : Instr} (h : decode w = .ok i) : i.wf = true ∧ encode i = w := by
  rcases decode_cases w with ⟨-, he⟩ | ⟨-, -, he⟩ | ⟨-, -, j, hj, hwf, hw⟩
  · rw [he] at h; cases h
  · rw [he] at h; cases h
  · rw [hj] at h; cases h; exact ⟨hwf, hw⟩

/-! ### The well-formed commands -/

/-- The well-formed commands, in the order of `legalWords` (30_encoding.md R78). -/
def legalCommands : List Instr :=
  [.nop, .csum, .repair, .txlen] ++ (List.range 34).map fun k => .patch (BitVec.ofNat 5 (k / 2)) (k % 2 == 1)

theorem mem_legalCommands_iff (i : Instr) : i ∈ legalCommands ↔ i.wf = true := by
  refine ⟨fun h => ?_, fun hwf => ?_⟩
  · have hall : ∀ j ∈ legalCommands, j.wf = true := by decide
    exact hall i h
  · cases i with
    | patch sel r =>
      have hpatch : ∀ (sel : BitVec 5) (r : Bool), sel.toNat < fieldCount → .patch sel r ∈ legalCommands := by decide
      exact hpatch sel r (of_decide_eq_true hwf)
    | _ => decide

/-- The legal words are the encodings of the well-formed commands. -/
theorem legalWords_eq_map_encode : Machine.legalWords = legalCommands.map encode := by decide

/-! ### The statements about words -/

/-- Settles O1: the decoder reads an encoding back, and what it accepts is an encoding. -/
theorem decodeAcceptsExactlyTheEncodings : Obligations.DecodeAcceptsExactlyTheEncodings := by
  intro w i
  refine ⟨encode_of_decode, ?_⟩
  rintro ⟨hwf, rfl⟩
  exact Machine.decode_encode hwf

/-- Settles O2: the conditions of `decode_cases` exclude each other. -/
theorem decodeErrorsInOrder : Obligations.DecodeErrorsInOrder := by
  intro w
  rw [← ReservedBitsSet, ← opField_toNat]
  rcases decode_cases w with ⟨hop, he⟩ | ⟨hop, hset, he⟩ | ⟨hop, hset, i, hi, -, -⟩
  · simp [he, hop, hop.not_gt]
  · simp [he, hop, hop.not_ge, hset]
  · simp [hi, hop, hop.not_ge, hset]

/-- Settles O3: the legal words are the encodings of the 38 well-formed commands. -/
theorem thirtyEightLegalWords : Obligations.ThirtyEightLegalWords := by
  refine ⟨by decide, by decide, fun w => ?_⟩
  calc (∃ i, decode w = .ok i)
      ↔ ∃ i, i ∈ legalCommands ∧ encode i = w := by
        simp only [mem_legalCommands_iff, decodeAcceptsExactlyTheEncodings w]
    _ ↔ w ∈ Machine.legalWords := by rw [legalWords_eq_map_encode, List.mem_map]

end Sys2Proof

namespace Sys2Proof.Machine

/-- Settles O5: the table row by row, and no row from its length on. -/
theorem layoutTableOffsetsAndWidths : Obligations.LayoutTableOffsetsAndWidths :=
  ⟨by decide, fun sel hsel => (fieldOf_eq_none_iff sel).2 hsel⟩

/-! ### The statements about a step -/

/-- A write to `CMD` of a word that does not decode raises the decoder's error and does nothing else
(30_encoding.md R73). -/
theorem step_decodeError {w : Word} {k : ErrorCode} {s : State} {rest : List Input}
    (hin : s.inputs = .regWrite 0x008#17 w :: rest) (hdec : decode w = .error k) :
    step s = .next { s with inputs := rest, status := withError (errorNumber k) s.status } := by
  rw [step_regWrite .cmd hin, writeReg, runCommand, hdec, ← statusAfterError_eq]
  rfl

/-- Settles O8: a word with an opcode of at least 5 decodes to IllegalOpcode. -/
theorem illegalOpcodeRaisesCodeOne : Obligations.IllegalOpcodeRaisesCodeOne := by
  intro s w rest hin hop
  have hdec : decode w = .error .illegalOpcode := (decodeErrorsInOrder w).1.2 hop
  simpa only [errorNumber] using step_decodeError hin hdec

/-- Settles O9: reserved bits under a legal opcode decode to ReservedField. -/
theorem reservedFieldRaisesCodeTwo : Obligations.ReservedFieldRaisesCodeTwo := by
  intro s w rest hin hop hset
  have hdec : decode w = .error .reservedField := (decodeErrorsInOrder w).2.1.2 ⟨hop, hset⟩
  simpa only [errorNumber] using step_decodeError hin hdec

end Sys2Proof.Machine
end

section
/-! SUPPORT. The checksum as exact integer arithmetic: what the accumulator, the fold and the eager adder hold, and the
statements about them (40_checksum.md R100 to R103, R108 to R110, R113). -/

namespace Sys2Proof.Machine

/-! ### The exact sum of the words -/

/-- The exact integer sum of 16-bit words. -/
def sumOfWords (ws : List Half) : Nat := (ws.map BitVec.toNat).sum

@[simp] theorem sumOfWords_nil : sumOfWords [] = 0 := rfl

@[simp] theorem sumOfWords_cons (w : Half) (ws : List Half) : sumOfWords (w :: ws) = w.toNat + sumOfWords ws := rfl

theorem sumOfWords_perm {ws ws' : List Half} (h : ws.Perm ws') : sumOfWords ws = sumOfWords ws' :=
  (h.map BitVec.toNat).sum_eq

/-- A word is its high byte over its low byte (40_checksum.md R100). -/
theorem toNat_append_byte (hi lo : Byte) : (hi ++ lo : Half).toNat = 256 * hi.toNat + lo.toNat := by
  rw [BitVec.toNat_append, ← Nat.shiftLeft_add_eq_or_of_lt lo.isLt, Nat.shiftLeft_eq]
  omega

theorem sumOfWords_checksumWords (bs : List Byte) : sumOfWords (checksumWords bs) = wordSum bs := by
  induction bs using checksumWords.induct with
  | case1 => rfl
  | case2 b => simp [toNat_append_byte, wordSum]
  | case3 hi lo bs ih => simp [toNat_append_byte, wordSum, ih]

/-- Every word is at most 0xFFFF, a padded last one at most 0xFF00 (40_checksum.md R109). -/
theorem wordSum_le (bs : List Byte) : wordSum bs ≤ 65535 * (bs.length / 2) + 65280 * (bs.length % 2) := by
  induction bs using checksumWords.induct with
  | case1 => simp [wordSum]
  | case2 b =>
    have hb := b.isLt
    simp only [wordSum, List.length_singleton]
    omega
  | case3 hi lo bs ih =>
    have hhi := hi.isLt
    have hlo := lo.isLt
    simp only [wordSum, List.length_cons]
    omega

/-- Words do not straddle a cut at an even offset. -/
theorem wordSum_append {xs : List Byte} (ys : List Byte) (h : xs.length % 2 = 0) :
    wordSum (xs ++ ys) = wordSum xs + wordSum ys := by
  induction xs using checksumWords.induct with
  | case1 => simp [wordSum]
  | case2 b => simp at h
  | case3 hi lo xs ih =>
    have heven : xs.length % 2 = 0 := by
      simp only [List.length_cons] at h
      omega
    simp only [List.cons_append, wordSum, ih heven]
    omega

/-! ### The accumulator -/

/-- The accumulator is the exact sum modulo 2^32 (40_checksum.md R101). -/
theorem accumulate_eq_ofNat (ws : List Half) : accumulate ws = BitVec.ofNat 32 (sumOfWords ws) := by
  have hfoldl : ∀ acc : Word,
      ws.foldl (fun acc w => acc + w.setWidth 32) acc = acc + BitVec.ofNat 32 (sumOfWords ws) := by
    induction ws with
    | nil => simp
    | cons w ws ih =>
      intro acc
      rw [List.foldl_cons, ih, sumOfWords_cons, BitVec.ofNat_add, BitVec.ofNat_toNat, BitVec.add_assoc]
  rw [accumulate, hfoldl, BitVec.zero_add]

/-- Up to 65535 bytes the sum fits the accumulator (40_checksum.md R109). -/
theorem accumulate_checksumWords_toNat {bs : List Byte} (h : bs.length ≤ 65535) :
    (accumulate (checksumWords bs)).toNat = wordSum bs := by
  have hle := wordSum_le bs
  rw [accumulate_eq_ofNat, sumOfWords_checksumWords, BitVec.toNat_ofNat, Nat.mod_eq_of_lt (by omega)]

/-! ### Folding -/

theorem foldSum_eq_self {x : Nat} (h : x < 65536) : foldSum x = x := by
  unfold foldSum
  split <;> omega

theorem foldSum_le (x : Nat) : foldSum x ≤ 65535 := by
  unfold foldSum
  split <;> omega

theorem foldSum_pos {x : Nat} (h : x ≠ 0) : 1 ≤ foldSum x := by
  rw [foldSum, if_neg h]
  omega

theorem foldSum_mod (x : Nat) : foldSum x % 65535 = x % 65535 := by
  unfold foldSum
  split <;> omega

/-- Adding the halves takes away a multiple of 0xFFFF and leaves 0 for 0 only (40_checksum.md R110). -/
theorem foldSum_add_halves (x : Nat) : foldSum (x % 65536 + x / 65536) = foldSum x := by
  unfold foldSum
  split <;> split <;> omega

theorem foldSum_foldLoop (n : Nat) (x : Word) : foldSum (foldLoop n x).toNat = foldSum x.toNat := by
  induction n generalizing x with
  | zero => rfl
  | succ n ih =>
    rw [foldLoop_succ_toNat]
    split
    · rfl
    · rw [ih, foldStep_toNat, foldSum_add_halves]

/-- The fold of an accumulator is the folded value of its number (40_checksum.md R102, R110). -/
theorem fold_toNat (x : Word) : (fold x).toNat = foldSum x.toNat := by
  have hhigh := foldLoop_two_high x
  calc (fold x).toNat
      = (foldLoop 2 x).toNat := by
        rw [fold, BitVec.extractLsb'_toNat, Nat.shiftRight_zero, Nat.mod_eq_of_lt hhigh]
    _ = foldSum (foldLoop 2 x).toNat := (foldSum_eq_self hhigh).symm
    _ = foldSum x.toNat := foldSum_foldLoop 2 x

theorem foldedSumOf_toNat (bs : List Byte) : (foldedSumOf bs).toNat = foldSum (wordSum bs) := by
  have hle := foldSum_le (wordSum bs)
  rw [foldedSumOf, BitVec.toNat_ofNat, Nat.mod_eq_of_lt (by omega)]

theorem checksumOf_toNat (bs : List Byte) : (checksumOf bs).toNat = 65535 - foldSum (wordSum bs) := by
  rw [checksumOf, BitVec.toNat_not, foldedSumOf_toNat]

/-- The checksum function is the one exact arithmetic gives (40_checksum.md R103, R109, R110). -/
theorem cksum_eq {bs : List Byte} (h : bs.length ≤ 65535) : cksum bs = (foldedSumOf bs, checksumOf bs) := by
  have hsum : fold (accumulate (checksumWords bs)) = foldedSumOf bs :=
    BitVec.eq_of_toNat_eq (by rw [fold_toNat, accumulate_checksumWords_toNat h, foldedSumOf_toNat])
  rw [cksum, hsum, checksumOf]

/-! ### The eager adder -/

/-- One end-around-carry addition keeps a folded sum folded (40_checksum.md R113). -/
theorem endAroundAdd_foldSum (x : Nat) (w : Half) : endAroundAdd (foldSum x) w.toNat = foldSum (x + w.toNat) := by
  have hw := w.isLt
  unfold endAroundAdd foldSum
  split <;> split <;> split <;> omega

theorem eagerSum_eq (ws : List Half) : eagerSum ws = foldSum (sumOfWords ws) := by
  have hfoldl : ∀ x, ws.foldl (fun r w => endAroundAdd r w.toNat) (foldSum x) = foldSum (x + sumOfWords ws) := by
    induction ws with
    | nil => simp
    | cons w ws ih =>
      intro x
      rw [List.foldl_cons, endAroundAdd_foldSum, ih, sumOfWords_cons, Nat.add_assoc]
  calc eagerSum ws
      = foldSum (0 + sumOfWords ws) := hfoldl 0
    _ = foldSum (sumOfWords ws) := by rw [Nat.zero_add]

/-! ### The verification identity -/

/-- A sum and the complement of its fold add up to a positive multiple of 0xFFFF (40_checksum.md R108). -/
theorem foldSum_add_complement (x : Nat) : foldSum (x + (65535 - foldSum x)) = 65535 := by
  unfold foldSum
  split <;> split <;> omega

/-- The bytes of a header whose checksum field, high byte first, holds `c` (40_checksum.md R105). -/
def headerWith (h₁ : List Byte) (c : Half) (h₂ : List Byte) : List Byte :=
  h₁ ++ [c.extractLsb' 8 8, c.extractLsb' 0 8] ++ h₂

theorem headerWith_zero (h₁ h₂ : List Byte) : headerWith h₁ 0#16 h₂ = h₁ ++ [0#8, 0#8] ++ h₂ := rfl

theorem headerWith_length (h₁ : List Byte) (c : Half) (h₂ : List Byte) :
    (headerWith h₁ c h₂).length = h₁.length + 2 + h₂.length := by
  simp only [headerWith, List.length_append, List.length_cons, List.length_nil]

/-- The two bytes of a register value, high byte first, spell it. -/
theorem bytes_toNat (c : Half) : 256 * (c.extractLsb' 8 8).toNat + (c.extractLsb' 0 8).toNat = c.toNat := by
  have hc := c.isLt
  simp only [BitVec.extractLsb'_toNat, Nat.shiftRight_eq_div_pow]
  omega

theorem wordSum_headerWith {h₁ : List Byte} (c : Half) (h₂ : List Byte) (h : h₁.length % 2 = 0) :
    wordSum (headerWith h₁ c h₂) = wordSum (headerWith h₁ 0#16 h₂) + c.toNat := by
  have hfield : ∀ d : Half, wordSum (headerWith h₁ d h₂) = wordSum h₁ + (d.toNat + wordSum h₂) := fun d => by
    rw [headerWith, List.append_assoc, wordSum_append _ h, List.cons_append, List.singleton_append, wordSum,
      bytes_toNat]
  rw [hfield, hfield, BitVec.toNat_ofNat]
  omega

/-- A header that holds its own checksum folds to 0xFFFF (40_checksum.md R108). -/
theorem foldedSumOf_headerWith_checksum {h₁ : List Byte} (h₂ : List Byte) (h : h₁.length % 2 = 0) :
    foldedSumOf (headerWith h₁ (checksumOf (headerWith h₁ 0#16 h₂)) h₂) = 0xFFFF#16 := by
  apply BitVec.eq_of_toNat_eq
  rw [foldedSumOf_toNat, wordSum_headerWith _ _ h, checksumOf_toNat, foldSum_add_complement]
  rfl

/-! ### The statements -/

/-- Settles O17: the sum of at most 65535 bytes lies below 2^32. -/
theorem accumulatorIsTheExactSum : Obligations.AccumulatorIsTheExactSum := by
  intro bs h
  have hle := wordSum_le bs
  exact ⟨accumulate_checksumWords_toNat h, by omega, fun heven => by omega⟩

/-- Settles O18: each round of the fold loop keeps the folded value of the number. -/
theorem foldIsTheResidueModulo65535 : Obligations.FoldIsTheResidueModulo65535 := by
  intro x
  rw [fold_toNat]
  refine ⟨?_, fun hx => ⟨foldSum_pos ?_, foldSum_mod x.toNat⟩⟩
  · rintro rfl
    rfl
  · exact fun hzero => hx (BitVec.eq_of_toNat_eq hzero)

/-- Settles O19: the eager adder holds the folded sum after every word, and the accumulator depends on the sum of the
words only. -/
theorem eagerFoldingAndAnyOrderAgree : Obligations.EagerFoldingAndAnyOrderAgree := by
  intro bs h
  refine ⟨?_, fun ws hperm => ?_⟩
  · rw [eagerSum_eq, sumOfWords_checksumWords, cksum_eq h, foldedSumOf_toNat]
  · rw [accumulate_eq_ofNat, sumOfWords_perm hperm, ← accumulate_eq_ofNat]
    rfl

end Sys2Proof.Machine
end

section
/-! SUPPORT. The statements about CSUM (40_checksum.md R104, R107; 60_exceptions.md R153). -/

namespace Sys2Proof.Machine

/-- Recording a checksum, register by register (40_checksum.md R104). -/
theorem recordChecksum_eq (sc : Half × Half) (s : State) :
    recordChecksum sc s = { s with
      sum := sc.1
      result := sc.2
      status := withZeroFlag (decide (sc.2 = 0#16)) s.status } := by
  rw [recordChecksum, statusAfterChecksum_eq]

/-- Settles O13: CSUM records the checksum of the range, which exact arithmetic gives as `LEN` has 16 bits. -/
theorem csumRecordsTheChecksum : Obligations.CsumRecordsTheChecksum := by
  intro s bs hrange hlen hat
  have hbound : bs.length ≤ 65535 := by
    have := s.len.isLt
    omega
  rw [exec, execCsum_in hrange hlen hat, recordChecksum_eq, cksum_eq hbound]

/-- Settles O14: the range check comes first and its error changes `STATUS` only. -/
theorem csumOutOfRangeRaisesCodeThree : Obligations.CsumOutOfRangeRaisesCodeThree := by
  intro s hout
  rw [exec, execCsum_out hout, raiseError, statusAfterError_eq, errorNumber]

/-- Settles O15, by everything CSUM can answer. -/
theorem csumFaultsExactlyOnUnwrittenBytes : Obligations.CsumFaultsExactlyOnUnwrittenBytes := by
  intro s e
  constructor
  · intro h
    rcases execCsum_cases s with ⟨-, hr⟩ | ⟨-, bs, -, -, hr⟩ | ⟨hrange, j, hj, hnone, hall, hr⟩ <;>
      rw [exec, hr] at h <;> cases h
    exact ⟨hrange, j, hj, rfl, (not_written_iff ..).2 hnone, hall⟩
  · rintro ⟨hrange, j, hj, rfl, hunwritten, hall⟩
    exact execCsum_uninit hrange hj ((not_written_iff ..).1 hunwritten) hall

/-- A CSUM in range that completes has found its bytes and recorded their checksum. -/
theorem execCsum_next_in {s t : State} (hrange : s.off.toNat + s.len.toNat ≤ s.frameCap)
    (h : execCsum s = .next t) :
    ∃ bs, bs.length = s.len.toNat ∧ BytesAt s.fb s.off.toNat bs ∧ t = recordChecksum (cksum bs) s := by
  rcases execCsum_cases s with ⟨hout, -⟩ | ⟨-, bs, hlen, hat, hr⟩ | ⟨-, j, -, -, -, hr⟩
  · omega
  · rw [hr] at h
    cases h
    exact ⟨bs, hlen, hat, rfl⟩
  · rw [hr] at h
    cases h

/-- Settles O16: the bytes of the range stand in the second buffer too. -/
theorem csumDependsOnlyOnItsRange : Obligations.CsumDependsOnlyOnItsRange := by
  intro s s' t hoff hlen hrange hrange' hread h
  obtain ⟨bs, hbs, hat, rfl⟩ := execCsum_next_in hrange h
  have hat' : BytesAt s'.fb s.off.toNat bs := bytesAt_congr (hbs ▸ hread) hat
  rw [← hoff] at hat'
  rw [exec, execCsum_in (by rwa [hoff, hlen]) (by rw [hbs, hlen]) hat', recordChecksum_eq,
    recordChecksum_sum, recordChecksum_result, recordChecksum_status, statusZero_afterChecksum]

end Sys2Proof.Machine
end

section
/-! SUPPORT. The statements about REPAIR and about the header it leaves (40_checksum.md R105, R106, R108, R111). -/

namespace Sys2Proof.Machine

/-! ### What REPAIR leaves -/

/-- Everything a repair sequence that completes has found and done (40_checksum.md R106). -/
theorem repairHeader_next {s t : State} (h : repairHeader s = .next t) :
    ∃ h₁ h₂ : List Byte, h₁.length = 10 ∧ h₂.length = 8 ∧ BytesAt s.fb 14 h₁ ∧ BytesAt s.fb 26 h₂ ∧
      t = recordChecksum (cksum (headerWith h₁ 0#16 h₂))
        { s with fb := memWrite (memWrite s.fb checksumOffset 2 0#16) checksumOffset 2
                  (cksum (headerWith h₁ 0#16 h₂)).2 } := by
  rcases repairHeader_cases s with ⟨h₁, h₂, hl₁, hl₂, hat₁, hat₂, hok⟩ | ⟨i, -, hbad⟩
  · rw [hok] at h
    cases h
    exact ⟨h₁, h₂, hl₁, hl₂, hat₁, hat₂, rfl⟩
  · rw [hbad] at h
    cases h

/-- The checksum REPAIR records and stores, by exact arithmetic. -/
theorem cksum_headerWith {h₁ h₂ : List Byte} (c : Half) (hl₁ : h₁.length = 10) (hl₂ : h₂.length = 8) :
    cksum (headerWith h₁ c h₂) = (foldedSumOf (headerWith h₁ c h₂), checksumOf (headerWith h₁ c h₂)) :=
  cksum_eq (by rw [headerWith_length]; omega)

/-- The bytes outside the checksum field stand after a store to it. -/
theorem bytesAt_storeChecksum {m : Memory} {a : Nat} {bs : List Byte} (c : Half)
    (hout : a + bs.length ≤ 24 ∨ 26 ≤ a) (hat : BytesAt m a bs) : BytesAt (memWrite m checksumOffset 2 c) a bs :=
  bytesAt_congr (fun x h1 h2 => by rw [read_storeChecksum, if_neg (by omega), if_neg (by omega)]) hat

/-- A header whose checksum field is then stored. -/
theorem bytesAt_headerWith {m : Memory} {h₁ h₂ : List Byte} (c : Half) (hl₁ : h₁.length = 10)
    (hat₁ : BytesAt m 14 h₁) (hat₂ : BytesAt m 26 h₂) :
    BytesAt (memWrite m checksumOffset 2 c) 14 (headerWith h₁ c h₂) :=
  bytesAt_header hl₁ (bytesAt_storeChecksum c (by omega) hat₁) (bytesAt_storeChecksum c (by omega) hat₂)
    (by simp [read_storeChecksum]) (by simp [read_storeChecksum])

/-! ### What REPAIR reads -/

/-- In a list by rising offset, the first unwritten byte is the one all smaller ones of the list are written before. -/
theorem firstUnwritten_eq_some_iff_of_pairwise {m : Memory} {l : List Nat} (hl : l.Pairwise (· < ·)) (i : Nat) :
    firstUnwritten m l = some i ↔
      i ∈ l ∧ m.written i = false ∧ ∀ k ∈ l, k < i → m.written k = true := by
  rw [firstUnwritten_eq_some_iff]
  constructor
  · rintro ⟨l₁, l₂, rfl, hall, hi⟩
    refine ⟨by simp, hi, fun k hk hlt => ?_⟩
    obtain ⟨-, hright, -⟩ := List.pairwise_append.1 hl
    rcases List.mem_append.1 hk with hk | hk
    · exact hall k hk
    · rcases List.mem_cons.1 hk with rfl | hk
      · exact absurd hlt (Nat.lt_irrefl k)
      · exact absurd hlt (Nat.lt_asymm (List.rel_of_pairwise_cons hright hk))
  · rintro ⟨hmem, hi, hall⟩
    obtain ⟨l₁, l₂, rfl⟩ := List.append_of_mem hmem
    obtain ⟨-, -, hcross⟩ := List.pairwise_append.1 hl
    exact ⟨l₁, l₂, rfl, fun k hk => hall k (by simp [hk]) (hcross k hk i (by simp)), hi⟩

theorem repairInputs_pairwise : repairInputs.Pairwise (· < ·) := by decide

theorem firstUnwritten_congr {m m' : Memory} {l : List Nat} (h : ∀ a ∈ l, m'.read a = m.read a) :
    firstUnwritten m' l = firstUnwritten m l := by
  induction l with
  | nil => rfl
  | cons a l ih =>
    have ha : m'.written a = m.written a := by rw [Memory.written, h a (by simp), Memory.written]
    rw [firstUnwritten, firstUnwritten, ha, ih fun b hb => h b (by simp [hb])]

/-- Storing the checksum twice leaves one of two buffers that differ in the checksum field only. -/
theorem memWrite_checksum_congr {m m' : Memory} (hm : m.wf) (hm' : m'.wf)
    (h : ∀ x, x ≠ 24 → x ≠ 25 → m'.read x = m.read x) (c : Half) :
    memWrite m' checksumOffset 2 c = memWrite m checksumOffset 2 c := by
  refine memory_ext (memWrite_wf hm' _ _ _) (memWrite_wf hm _ _ _) fun x => ?_
  rw [read_storeChecksum, read_storeChecksum]
  by_cases h25 : x = 25
  · rw [if_pos h25, if_pos h25]
  · by_cases h24 : x = 24
    · rw [if_neg h25, if_neg h25, if_pos h24, if_pos h24]
    · rw [if_neg h25, if_neg h25, if_neg h24, if_neg h24, h x h24 h25]

/-- A second recorded checksum replaces the first. -/
theorem recordChecksum_recordChecksum (sc sc' : Half × Half) (s : State) :
    recordChecksum sc (recordChecksum sc' s) = recordChecksum sc s := by
  have hstatus : statusAfterChecksum sc.2 (statusAfterChecksum sc'.2 s.status) = statusAfterChecksum sc.2 s.status := by
    apply word_ext
    intro i _
    simp only [getLsbD_statusAfterChecksum]
    split <;> rfl
  simp only [recordChecksum, hstatus]

/-- REPAIR does not read the registers a checksum is recorded in, and writes them itself. -/
theorem repairHeader_recordChecksum (sc : Half × Half) (s : State) :
    repairHeader (recordChecksum sc s) = repairHeader s := by
  rcases repairHeader_cases s with ⟨h₁, h₂, hl₁, hl₂, hat₁, hat₂, hok⟩ | ⟨i, hi, hbad⟩
  · rw [hok, repairHeader_loaded (s := recordChecksum sc s) hl₁ hl₂ hat₁ hat₂]
    exact congrArg Host.Outcome.next (recordChecksum_recordChecksum _ sc { s with fb := _ })
  · rw [hbad]
    exact repairHeader_uninit hi

/-! ### The statements about REPAIR -/

/-- Settles O20: the buffer after the store of the checksum, read byte by byte. -/
theorem repairStoresTheHeaderChecksum : Obligations.RepairStoresTheHeaderChecksum := by
  intro s h₁ h₂ hl₁ hl₂ hat₁ hat₂
  rw [← headerWith_zero]
  refine ⟨memWrite (memWrite s.fb checksumOffset 2 0#16) checksumOffset 2 (checksumOf (headerWith h₁ 0#16 h₂)),
    ?_, by simp [read_storeChecksum], by simp [read_storeChecksum],
    fun x h24 h25 => by simp [read_storeChecksum, h24, h25]⟩
  rw [exec, execRepair, repairHeader_loaded hl₁ hl₂ hat₁ hat₂, ← headerWith_zero, cksum_headerWith _ hl₁ hl₂,
    recordChecksum_eq]

/-- Settles O21: the check list rises through 14 to 33 without 24 and 25. -/
theorem repairFaultsExactlyOnUnwrittenHeader : Obligations.RepairFaultsExactlyOnUnwrittenHeader := by
  intro s e
  constructor
  · intro h
    rcases repairHeader_cases s with ⟨h₁, h₂, -, -, -, -, hok⟩ | ⟨i, hi, hbad⟩
    · rw [exec, execRepair, hok] at h
      cases h
    · rw [exec, execRepair, hbad] at h
      cases h
      obtain ⟨hmem, hunwritten, hall⟩ := (firstUnwritten_eq_some_iff_of_pairwise repairInputs_pairwise i).1 hi
      rw [mem_repairInputs] at hmem
      refine ⟨i, rfl, by omega, by omega, by omega, by omega, hunwritten, fun k h14 hlt h24 h25 => ?_⟩
      exact hall k ((mem_repairInputs k).2 (by omega)) hlt
  · rintro ⟨i, rfl, h14, h34, h24, h25, hunwritten, hall⟩
    refine repairHeader_uninit ((firstUnwritten_eq_some_iff_of_pairwise repairInputs_pairwise i).2
      ⟨(mem_repairInputs i).2 (by omega), hunwritten, fun k hk hlt => ?_⟩)
    rw [mem_repairInputs] at hk
    exact hall k (by omega) hlt (by omega) (by omega)

/-- Settles O22: REPAIR checks and reads other bytes, and zeroes these two before it sums. -/
theorem repairIgnoresTheOldChecksum : Obligations.RepairIgnoresTheOldChecksum := by
  intro s m hwf hm hread
  rw [exec, execRepair, exec, execRepair]
  rcases repairHeader_cases s with ⟨h₁, h₂, hl₁, hl₂, hat₁, hat₂, hok⟩ | ⟨i, hi, hbad⟩
  · have hat₁' : BytesAt m 14 h₁ := bytesAt_congr (fun x _ _ => hread x (by omega) (by omega)) hat₁
    have hat₂' : BytesAt m 26 h₂ := bytesAt_congr (fun x _ _ => hread x (by omega) (by omega)) hat₂
    rw [hok, repairHeader_loaded (s := { s with fb := m }) hl₁ hl₂ hat₁' hat₂',
      memWrite_checksum_congr hwf hm hread]
  · have hcheck : firstUnwritten m repairInputs = firstUnwritten s.fb repairInputs :=
      firstUnwritten_congr fun a ha => by
        rw [mem_repairInputs] at ha
        exact hread a (by omega) (by omega)
    rw [hbad]
    exact repairHeader_uninit (hcheck.trans hi)

/-- Settles O23: the state after REPAIR differs from the one before in what REPAIR does not depend on. -/
theorem repairTwiceIsRepairOnce : Obligations.RepairTwiceIsRepairOnce := by
  intro s t hwf h
  obtain ⟨h₁, h₂, -, -, -, -, ht⟩ := repairHeader_next h
  have htwf : t.fb.wf := by
    rw [ht]
    exact memWrite_wf (memWrite_wf hwf _ _ _) _ _ _
  have hignore : repairHeader { s with fb := t.fb } = repairHeader s :=
    repairIgnoresTheOldChecksum s t.fb hwf htwf fun x h24 h25 => repairHeader_read h h24 h25
  calc exec .repair t
      = repairHeader (recordChecksum (cksum (headerWith h₁ 0#16 h₂)) { s with fb := t.fb }) :=
        congrArg repairHeader (by rw [ht]; rfl)
    _ = repairHeader s := by rw [repairHeader_recordChecksum, hignore]
    _ = .next t := h

/-! ### The verification identity -/

/-- The IPv4 header is written and folds to 0xFFFF (40_checksum.md R108). -/
def HeaderVerified (m : Memory) : Prop :=
  ∃ bs : List Byte, bs.length = 20 ∧ BytesAt m 14 bs ∧ foldedSumOf bs = 0xFFFF#16

theorem HeaderVerified.congr {m m' : Memory} (hv : HeaderVerified m)
    (h : ∀ x, 14 ≤ x → x < 34 → m'.read x = m.read x) : HeaderVerified m' := by
  obtain ⟨bs, hlen, hat, hsum⟩ := hv
  exact ⟨bs, hlen, bytesAt_congr (fun x h1 h2 => h x h1 (by omega)) hat, hsum⟩

/-- A store of the checksum of a header with a zero checksum field makes it verify (40_checksum.md R105, R108). -/
theorem headerVerified_storeChecksum {m : Memory} {h₁ h₂ : List Byte} (hl₁ : h₁.length = 10) (hl₂ : h₂.length = 8)
    (hat₁ : BytesAt m 14 h₁) (hat₂ : BytesAt m 26 h₂) :
    HeaderVerified (memWrite m checksumOffset 2 (checksumOf (headerWith h₁ 0#16 h₂))) :=
  ⟨headerWith h₁ (checksumOf (headerWith h₁ 0#16 h₂)) h₂, by rw [headerWith_length, hl₁, hl₂],
    bytesAt_headerWith _ hl₁ hat₁ hat₂, foldedSumOf_headerWith_checksum h₂ (by rw [hl₁])⟩

theorem repairHeader_verified {s t : State} (h : repairHeader s = .next t) : HeaderVerified t.fb := by
  obtain ⟨h₁, h₂, hl₁, hl₂, hat₁, hat₂, rfl⟩ := repairHeader_next h
  rw [recordChecksum_fb, cksum_headerWith _ hl₁ hl₂]
  exact headerVerified_storeChecksum hl₁ hl₂ (bytesAt_storeChecksum _ (by omega) hat₁)
    (bytesAt_storeChecksum _ (by omega) hat₂)

/-- CSUM over a header that verifies (40_checksum.md R108). -/
theorem csum_headerVerified {u : State} (hv : HeaderVerified u.fb) (hoff : u.off = 14#16) (hlen : u.len = 20#16)
    (hcap : 42 ≤ u.frameCap) :
    exec .csum u = .next { u with
      sum := 0xFFFF#16
      result := 0x0000#16
      status := withZeroFlag true u.status } := by
  obtain ⟨bs, hbs, hat, hsum⟩ := hv
  have hoffNat : u.off.toNat = 14 := by rw [hoff]; rfl
  have hlenNat : u.len.toNat = 20 := by rw [hlen]; rfl
  have hresult : checksumOf bs = 0x0000#16 := by rw [checksumOf, hsum]; rfl
  rw [csumRecordsTheChecksum u bs (by omega) (by omega) (by rwa [hoffNat]), hsum, hresult, decide_eq_true rfl]

/-- A header with a zero checksum field, split around that field. -/
theorem exists_headerWith_zero {m : Memory} {bs : List Byte} (hlen : bs.length = 20) (hat : BytesAt m 14 bs)
    (h24 : m.read 24 = some 0#8) (h25 : m.read 25 = some 0#8) :
    ∃ h₁ h₂ : List Byte, h₁.length = 10 ∧ h₂.length = 8 ∧ BytesAt m 14 h₁ ∧ BytesAt m 26 h₂ ∧
      bs = headerWith h₁ 0#16 h₂ := by
  have hwritten : ∀ k, k < 20 → m.written (14 + k) = true := fun k hk =>
    (written_iff ..).2 ⟨_, hat k (by omega)⟩
  obtain ⟨h₁, hl₁, hat₁⟩ := exists_bytesAt (m := m) (a := 14) (n := 10) fun k hk => hwritten k (by omega)
  obtain ⟨h₂, hl₂, hat₂⟩ := exists_bytesAt (m := m) (a := 26) (n := 8) fun k hk => by
    rw [show 26 + k = 14 + (12 + k) by omega]
    exact hwritten (12 + k) (by omega)
  refine ⟨h₁, h₂, hl₁, hl₂, hat₁, hat₂, bytesAt_unique ?_ hat (bytesAt_header hl₁ hat₁ hat₂ h24 h25)⟩
  rw [headerWith_zero]
  simp [hlen, hl₁, hl₂]

/-- Settles O24: both ways store, into the field, the checksum of the header with that field zero. -/
theorem verificationIdentity : Obligations.VerificationIdentity := by
  refine ⟨fun s t hcap h => ?_, fun s t hcap hoff hlen h24 h25 h => ?_⟩
  · have hv : HeaderVerified t.fb := repairHeader_verified h
    obtain ⟨h₁, h₂, -, -, -, -, rfl⟩ := repairHeader_next h
    exact csum_headerVerified (u := { recordChecksum _ _ with off := 14#16, len := 20#16 }) hv rfl rfl hcap
  · have hoffNat : s.off.toNat = 14 := by rw [hoff]; rfl
    have hlenNat : s.len.toNat = 20 := by rw [hlen]; rfl
    obtain ⟨bs, hbs, hat, rfl⟩ := execCsum_next_in (by omega) h
    rw [hoffNat] at hat
    obtain ⟨h₁, h₂, hl₁, hl₂, hat₁, hat₂, rfl⟩ := exists_headerWith_zero (hbs.trans hlenNat) hat h24 h25
    rw [cksum_headerWith _ hl₁ hl₂]
    exact csum_headerVerified (u := { recordChecksum _ _ with fb := _ })
      (headerVerified_storeChecksum hl₁ hl₂ hat₁ hat₂) hoff hlen hcap

/-- A PATCH with R = 1 of a selector of the layout table that completes ends in a completed repair sequence
(41_patcher.md R122). -/
theorem execPatch_repair_next {sel : BitVec 5} {s t : State} (hsel : sel.toNat < fieldCount)
    (h : execPatch sel true s = .next t) : ∃ m, repairHeader { s with fb := m } = .next t := by
  obtain ⟨f, hf⟩ := fieldOf_isSome hsel
  cases hp : patchField f (patchValue s) (patchMask s) s.fb with
  | ok m =>
    rw [execPatch_ok true hf hp, if_pos rfl] at h
    exact ⟨m, h⟩
  | error i =>
    rw [execPatch_error true hf hp] at h
    cases h

/-- Settles O30: both commands end in the repair sequence, and the header is the same in the later state. -/
theorem mutationThenRepairVerifies : Obligations.MutationThenRepairVerifies := by
  intro s t u i hi h hread hoff hlen hcap
  have hv : HeaderVerified t.fb := by
    rcases hi with rfl | ⟨sel, hsel, rfl⟩
    · exact repairHeader_verified h
    · obtain ⟨m, hrepair⟩ := execPatch_repair_next hsel h
      exact repairHeader_verified hrepair
  exact csum_headerVerified (hv.congr hread) hoff hlen hcap

end Sys2Proof.Machine
end

section
/-! SUPPORT. The statements about PATCH (41_patcher.md R121, R122, R124): the masked write of a field in the integer
arithmetic of the statements, and the commands that consist of it. -/

namespace Sys2Proof.Machine

/-! ### What a patched byte holds -/

/-- Bits that a mask takes from a value stay as they are when it takes them again (41_patcher.md R124). -/
theorem mergeByte_mergeByte (old vb mb : Byte) : mergeByte (mergeByte old vb mb) vb mb = mergeByte old vb mb := by
  apply BitVec.eq_of_getLsbD_eq
  intro i hi
  simp only [mergeByte, BitVec.getLsbD_or, BitVec.getLsbD_and, BitVec.getLsbD_not, hi, decide_true, Bool.true_and]
  cases mb.getLsbD i <;> simp

theorem patchedByte_partial {mb : Byte} (h : PartialMask mb) (old : Option Byte) (vb : Byte) :
    patchedByte old vb mb = old.map (mergeByte · vb mb) := by
  rw [patchedByte, if_neg h.1, if_neg h.2]
  rfl

theorem patchedByte_patchedByte (old : Option Byte) (vb mb : Byte) :
    patchedByte (patchedByte old vb mb) vb mb = patchedByte old vb mb := by
  by_cases hp : PartialMask mb
  · simp only [patchedByte_partial hp, Option.map_map, Function.comp_def, mergeByte_mergeByte]
  · unfold patchedByte
    by_cases hff : mb = 0xFF#8
    · rw [if_pos hff, if_pos hff]
    · have h00 : mb = 0x00#8 := by_contra fun hne => hp ⟨hff, hne⟩
      rw [if_neg hff, if_pos h00, if_neg hff, if_pos h00]

theorem afterPatch_inside {f : HeaderField} {x : Nat} (s : State) (h : f.offset ≤ x ∧ x < f.offset + f.width) :
    afterPatch s f x = patchedByte (s.fb.read x) (patchValueByte s f.width (x - f.offset))
      (patchMaskByte s f.width (x - f.offset)) := if_pos h

theorem afterPatch_outside {f : HeaderField} {x : Nat} (s : State) (h : x < f.offset ∨ f.offset + f.width ≤ x) :
    afterPatch s f x = s.fb.read x := if_neg (by omega)

/-- Of the buffer, a patched byte depends on its own old value alone. -/
theorem afterPatch_congr {s : State} {m : Memory} {x : Nat} (f : HeaderField) (h : m.read x = s.fb.read x) :
    afterPatch { s with fb := m } f x = afterPatch s f x := by
  rw [afterPatch, afterPatch, h]
  rfl

/-- A byte that holds what a patch leaves holds the same after the patch (41_patcher.md R124). -/
theorem afterPatch_afterPatch {s : State} {f : HeaderField} {m : Memory} {x : Nat} (h : m.read x = afterPatch s f x) :
    afterPatch { s with fb := m } f x = afterPatch s f x := by
  by_cases hx : f.offset ≤ x ∧ x < f.offset + f.width
  · rw [afterPatch_inside s hx] at h
    rw [afterPatch_inside _ hx, afterPatch_inside s hx, h]
    exact patchedByte_patchedByte _ _ _
  · rw [afterPatch_outside _ (by omega), h]

theorem patchedByte_isSome {old : Option Byte} (h : old.isSome = true) (vb mb : Byte) :
    (patchedByte old vb mb).isSome = true := by
  unfold patchedByte
  split
  · rfl
  · split
    · exact h
    · rwa [Option.isSome_map]

/-- A patch clears no mark (10_state.md R41). -/
theorem written_of_afterPatch {s : State} {f : HeaderField} {m : Memory} {x : Nat} (h : m.read x = afterPatch s f x)
    (hw : s.fb.written x = true) : m.written x = true := by
  rw [Memory.written, h]
  unfold afterPatch
  split
  · exact patchedByte_isSome hw _ _
  · exact hw

/-- Patches of two fields without a common byte commute at every byte (41_patcher.md R124). -/
theorem afterPatch_comm {s : State} {f₁ f₂ : HeaderField} {m₁ m₂ : Memory} {x : Nat}
    (hdisjoint : f₁.offset + f₁.width ≤ f₂.offset ∨ f₂.offset + f₂.width ≤ f₁.offset)
    (h₁ : m₁.read x = afterPatch s f₁ x) (h₂ : m₂.read x = afterPatch s f₂ x) :
    afterPatch { s with fb := m₁ } f₂ x = afterPatch { s with fb := m₂ } f₁ x := by
  by_cases hx : f₁.offset ≤ x ∧ x < f₁.offset + f₁.width
  · have hout : x < f₂.offset ∨ f₂.offset + f₂.width ≤ x := by omega
    rw [afterPatch_outside _ hout] at h₂ ⊢
    rw [afterPatch_congr f₁ h₂, ← h₁]
  · have hout : x < f₁.offset ∨ f₁.offset + f₁.width ≤ x := by omega
    rw [afterPatch_outside _ hout] at h₁ ⊢
    rw [afterPatch_congr f₂ h₁, ← h₂]

/-! ### The masked write of a field -/

theorem patchable_iff (s : State) (f : HeaderField) (j : Nat) :
    Patchable f (patchMask s) s.fb j ↔
      (PartialMask (patchMaskByte s f.width j) → s.fb.written (f.offset + j) = true) := by
  rw [Patchable, byteOf_patchMask]

/-- A field whose bytes can be patched is patched, and no other byte changes (41_patcher.md R121). -/
theorem patchField_ready {s : State} {f : HeaderField} (h : PatchReady s f) :
    ∃ m, patchField f (patchValue s) (patchMask s) s.fb = .ok m ∧ ∀ x, m.read x = afterPatch s f x := by
  obtain ⟨m, hm, hin, hout⟩ := patchField_ok (v := patchValue s) fun j hj => (patchable_iff s f j).2 (h j hj)
  refine ⟨m, hm, fun x => ?_⟩
  by_cases hx : f.offset ≤ x ∧ x < f.offset + f.width
  · have hread := hin (x - f.offset) (by omega)
    rwa [Nat.add_sub_cancel' hx.1, byteOf_patchValue, byteOf_patchMask, ← afterPatch_inside s hx] at hread
  · rw [hout x (by omega), afterPatch_outside s (by omega)]

/-- Byte `j` is the first of the field that a patch reads and finds unwritten (70_reset_and_hazards.md R174). -/
def FirstUnpatchable (s : State) (f : HeaderField) (j : Nat) : Prop :=
  j < f.width ∧ PartialMask (patchMaskByte s f.width j) ∧ s.fb.written (f.offset + j) = false ∧
    ∀ k, k < j → PartialMask (patchMaskByte s f.width k) → s.fb.written (f.offset + k) = true

theorem patchField_firstUnpatchable {s : State} {f : HeaderField} {j : Nat} (h : FirstUnpatchable s f j) :
    patchField f (patchValue s) (patchMask s) s.fb = .error (f.offset + j) := by
  obtain ⟨hj, hp, hw, hall⟩ := h
  exact patchField_error hj (fun k hk => (patchable_iff s f k).2 (hall k hk)) (byteOf_patchMask s .. ▸ hp) hw

theorem patchReady_or_firstUnpatchable (s : State) (f : HeaderField) :
    PatchReady s f ∨ ∃ j, FirstUnpatchable s f j := by
  rcases patchField_cases f (patchValue s) (patchMask s) s.fb with ⟨-, -, hall, -, -⟩ | ⟨j, hj, hall, hp, hw, -⟩
  · exact .inl fun j hj => (patchable_iff s f j).1 (hall j hj)
  · rw [byteOf_patchMask] at hp
    exact .inr ⟨j, hj, hp, hw, fun k hk => (patchable_iff s f k).1 (hall k hk)⟩

/-! ### PATCH with R = 0 -/

/-- The buffer `m` is in canonical form and holds what PATCH with R = 0 on the field `f` leaves. -/
def IsPatched (s : State) (f : HeaderField) (m : Memory) : Prop := m.wf ∧ ∀ x, m.read x = afterPatch s f x

theorem IsPatched.unique {s : State} {f : HeaderField} {m m' : Memory} (h : IsPatched s f m) (h' : IsPatched s f m') :
    m = m' :=
  memory_ext h.1 h'.1 fun x => (h.2 x).trans (h'.2 x).symm

section
variable {s : State} {sel : BitVec 5} {f : HeaderField} (hf : fieldOf sel = some f)
include hf

theorem exec_patch_firstUnpatchable {j : Nat} (h : FirstUnpatchable s f j) :
    exec (.patch sel false) s = .fault (.uninitRead (f.offset + j)) :=
  execPatch_error false hf (patchField_firstUnpatchable h)

theorem exec_patch_ready (hwf : s.fb.wf) (h : PatchReady s f) :
    ∃ m, IsPatched s f m ∧ exec (.patch sel false) s = .next { s with fb := m } := by
  obtain ⟨m, hm, hread⟩ := patchField_ready h
  exact ⟨m, ⟨(patchField_update (fieldOf_inside hf).1 hm).wf hwf, hread⟩, execPatch_ok false hf hm⟩

/-- From a buffer in canonical form, when PATCH with R = 0 completes and with which state. -/
theorem exec_patch_next_iff (hwf : s.fb.wf) (t : State) :
    exec (.patch sel false) s = .next t ↔ PatchReady s f ∧ ∃ m, IsPatched s f m ∧ t = { s with fb := m } := by
  constructor
  · intro h
    rcases patchReady_or_firstUnpatchable s f with hready | ⟨j, hj⟩
    · obtain ⟨m, hm, hok⟩ := exec_patch_ready hf hwf hready
      rw [hok] at h
      cases h
      exact ⟨hready, m, hm, rfl⟩
    · rw [exec_patch_firstUnpatchable hf hj] at h
      cases h
  · rintro ⟨hready, m, hm, rfl⟩
    obtain ⟨m', hm', hok⟩ := exec_patch_ready hf hwf hready
    rw [hok, hm.unique hm']

end

/-- Settles O25: the loop over the field, byte by byte. -/
theorem patchWritesTheMaskedField : Obligations.PatchWritesTheMaskedField := by
  intro s sel f hf hready
  obtain ⟨m, hm, hread⟩ := patchField_ready hready
  exact ⟨m, execPatch_ok false hf hm, hread⟩

/-- Settles O26: a field is ready to be patched or has a first byte that is not. -/
theorem patchFaultsExactlyOnUnwrittenMaskedBytes : Obligations.PatchFaultsExactlyOnUnwrittenMaskedBytes := by
  intro s sel f e hf
  constructor
  · intro h
    rcases patchReady_or_firstUnpatchable s f with hready | ⟨j, hj⟩
    · obtain ⟨m, hok, -⟩ := patchWritesTheMaskedField s sel f hf hready
      rw [hok] at h
      cases h
    · rw [exec_patch_firstUnpatchable hf hj] at h
      cases h
      obtain ⟨hlt, hp, hw, hall⟩ := hj
      exact ⟨j, hlt, rfl, hp, hw, hall⟩
  · rintro ⟨j, hlt, rfl, hp, hw, hall⟩
    exact exec_patch_firstUnpatchable hf ⟨hlt, hp, hw, hall⟩

/-! ### Two PATCHes with R = 0 -/

/-- A field stays ready to be patched when none of its marks is cleared. -/
theorem PatchReady.of_written {s : State} {f : HeaderField} {m : Memory} (h : PatchReady s f)
    (hw : ∀ j, j < f.width → s.fb.written (f.offset + j) = true → m.written (f.offset + j) = true) :
    PatchReady { s with fb := m } f :=
  fun j hj hp => hw j hj (h j hj hp)

/-- Settles O31: the patched field is ready, and holds what the second patch writes. -/
theorem patchTwiceIsPatchOnce : Obligations.PatchTwiceIsPatchOnce := by
  intro s t sel hsel hwf h
  obtain ⟨f, hf⟩ := fieldOf_isSome hsel
  obtain ⟨hready, m, ⟨hm, hread⟩, rfl⟩ := (exec_patch_next_iff hf hwf t).1 h
  have hready' : PatchReady { s with fb := m } f := hready.of_written fun j _ => written_of_afterPatch (hread _)
  have hsame : IsPatched { s with fb := m } f m := ⟨hm, fun x => (hread x).trans (afterPatch_afterPatch (hread x)).symm⟩
  exact (exec_patch_next_iff hf hm _).2 ⟨hready', m, hsame, rfl⟩

/-- The fields of the layout table follow one another without overlap (30_encoding.md R76). -/
theorem layout_pairwise : layout.Pairwise (fun f g => f.offset + f.width ≤ g.offset) := by decide

theorem fieldOf_disjoint {sel₁ sel₂ : BitVec 5} {f₁ f₂ : HeaderField} (hne : sel₁ ≠ sel₂)
    (h₁ : fieldOf sel₁ = some f₁) (h₂ : fieldOf sel₂ = some f₂) :
    f₁.offset + f₁.width ≤ f₂.offset ∨ f₂.offset + f₂.width ≤ f₁.offset := by
  obtain ⟨hlt₁, rfl⟩ := List.getElem?_eq_some_iff.1 h₁
  obtain ⟨hlt₂, rfl⟩ := List.getElem?_eq_some_iff.1 h₂
  have hrising := List.pairwise_iff_getElem.1 layout_pairwise
  rcases Nat.lt_or_gt_of_ne fun h => hne (BitVec.eq_of_toNat_eq h) with hlt | hlt
  · exact .inl (hrising _ _ hlt₁ hlt₂ hlt)
  · exact .inr (hrising _ _ hlt₂ hlt₁ hlt)

/-- Settles O32: the fields have no byte in common, so neither PATCH touches what the other reads or writes. -/
theorem patchesOfDifferentFieldsCommute : Obligations.PatchesOfDifferentFieldsCommute := by
  intro s t u sel₁ sel₂ hsel₁ hsel₂ hne hwf ht hu
  obtain ⟨f₁, hf₁⟩ := fieldOf_isSome hsel₁
  obtain ⟨f₂, hf₂⟩ := fieldOf_isSome hsel₂
  have hdisjoint := fieldOf_disjoint hne hf₁ hf₂
  obtain ⟨hready₁, m₁, ⟨hwf₁, hread₁⟩, rfl⟩ := (exec_patch_next_iff hf₁ hwf t).1 ht
  obtain ⟨hready₂', m, ⟨hm, hread⟩, rfl⟩ := (exec_patch_next_iff hf₂ hwf₁ u).1 hu
  have hready₂ : PatchReady s f₂ := hready₂'.of_written (m := s.fb) fun j hj hw => by
    have hkept : m₁.read (f₂.offset + j) = s.fb.read (f₂.offset + j) :=
      (hread₁ _).trans (afterPatch_outside s (by omega))
    rwa [Memory.written, hkept] at hw
  obtain ⟨m₂, ⟨hwf₂, hread₂⟩, hok₂⟩ := exec_patch_ready hf₂ hwf hready₂
  have hready₁' : PatchReady { s with fb := m₂ } f₁ :=
    hready₁.of_written fun j _ => written_of_afterPatch (hread₂ _)
  refine ⟨_, hok₂, (exec_patch_next_iff hf₁ hwf₂ _).2 ⟨hready₁', m, ⟨hm, fun x => ?_⟩, rfl⟩⟩
  rw [hread x, afterPatch_comm hdisjoint (hread₁ x) (hread₂ x)]

/-! ### PATCH with R = 1 -/

/-- Settles O28: both commands begin with the same masked write, and only then differ. -/
theorem patchWithRepairIsPatchThenRepair : Obligations.PatchWithRepairIsPatchThenRepair := by
  intro s sel hsel
  obtain ⟨f, hf⟩ := fieldOf_isSome hsel
  rw [exec, exec]
  cases hp : patchField f (patchValue s) (patchMask s) s.fb with
  | ok m =>
    rw [execPatch_ok false hf hp, execPatch_ok true hf hp]
    refine ⟨fun t h => ?_, fun e h => ?_⟩ <;> cases h
    rfl
  | error i =>
    rw [execPatch_error false hf hp, execPatch_error true hf hp]
    exact ⟨fun t h => (by cases h), fun e h => h⟩

/-- PATCH with R = 1 of a ready field is REPAIR of the patched buffer (41_patcher.md R122). -/
theorem exec_patch_repair_ready {s : State} {sel : BitVec 5} {f : HeaderField} (hf : fieldOf sel = some f)
    (h : PatchReady s f) :
    ∃ m, (∀ x, m.read x = afterPatch s f x) ∧ exec (.patch sel true) s = exec .repair { s with fb := m } := by
  obtain ⟨m, hm, hread⟩ := patchField_ready h
  exact ⟨m, hread, execPatch_ok true hf hm⟩

/-- Settles O29: the patched header is loaded, so REPAIR of it completes. -/
theorem patchWithRepairCompletes : Obligations.PatchWithRepairCompletes := by
  intro s sel f hf hready hsome
  obtain ⟨m, hread, hrepair⟩ := exec_patch_repair_ready hf hready
  have hloaded : State.HeaderLoaded { s with fb := m } := fun x h14 h34 h24 h25 => by
    rw [Memory.written, hread]
    exact hsome x h14 h34 h24 h25
  obtain ⟨h₁, h₂, hl₁, hl₂, hat₁, hat₂⟩ := headerLoaded_bytes hloaded
  obtain ⟨m', hok, h24, h25, hout⟩ := repairStoresTheHeaderChecksum { s with fb := m } h₁ h₂ hl₁ hl₂ hat₁ hat₂
  exact ⟨m', h₁, h₂, hl₁, hl₂, fun j hj => (hread _).symm.trans (hat₁ j hj),
    fun j hj => (hread _).symm.trans (hat₂ j hj), hrepair.trans hok, h24, h25,
    fun x hx24 hx25 => (hout x hx24 hx25).trans (hread x)⟩

end Sys2Proof.Machine
end

section
/-! SUPPORT. The statement about the pseudo-command SETSRC (30_encoding.md R81, 41_patcher.md R123). -/

namespace Sys2Proof.Machine

/-! ### A four-byte field under a full low mask -/

/-- The operand bytes of a field of at most four bytes lie in the low register (10_state.md R36, R37). -/
theorem byteOf_append_low (hi : Half) (lo : Word) {n : Nat} (hn : n ≤ 4) (j : Nat) :
    byteOf (hi ++ lo) n j = byteOf lo n j :=
  BitVec.extractLsb'_append_eq_of_add_le (by omega)

theorem byteOf_allOnes : ∀ j, j < 4 → byteOf 0xFFFFFFFF#32 4 j = 0xFF#8 := by decide

section
variable {s : State} {f : HeaderField} (hwidth : f.width = 4) (hmask : s.pmskLo = 0xFFFFFFFF#32)
include hwidth hmask

theorem patchMaskByte_lowFull {j : Nat} (hj : j < 4) : patchMaskByte s f.width j = 0xFF#8 := by
  rw [← byteOf_patchMask, patchMask, hwidth, byteOf_append_low _ _ le_rfl, hmask, byteOf_allOnes j hj]

/-- A patch under a full mask reads nothing (41_patcher.md R121). -/
theorem patchReady_lowFull : PatchReady s f :=
  fun _ hj hp => absurd (patchMaskByte_lowFull hwidth hmask (hwidth ▸ hj)) hp.1

theorem afterPatch_lowFull {j : Nat} (hj : j < 4) : afterPatch s f (f.offset + j) = some (byteOf s.pvalLo 4 j) := by
  rw [afterPatch_inside s (by omega), Nat.add_sub_cancel_left, patchedByte,
    if_pos (patchMaskByte_lowFull hwidth hmask hj), ← byteOf_patchValue, patchValue, hwidth,
    byteOf_append_low _ _ le_rfl]

end

/-! ### The three accesses -/

/-- The state in which the command of SETSRC runs: value and mask are set and its three accesses are taken. -/
def setsrcOperands (a32 : Word) (rest : List Input) (s : State) : State :=
  { s with pvalLo := a32, pmskLo := 0xFFFFFFFF#32, inputs := rest }

theorem step_storeReg {r : Reg} {v : Word} {s : State} {rest : List Input} (hcmd : r ≠ .cmd) (hstatus : r ≠ .status)
    (hin : s.inputs = .regWrite (HostProgram.addrOf r) v :: rest) :
    step s = .next (storeReg r v { s with inputs := rest }) := by
  rw [step_regWrite r hin, writeReg_eq_storeReg v _ hcmd hstatus]

/-- Three steps of SETSRC are its two register writes and then PATCH IP_SRC with R = 1 (30_encoding.md R81). -/
theorem run_setsrc {s t : State} {a32 : Word} {rest : List Input} (hin : s.inputs = HostProgram.setsrc a32 ++ rest)
    (h : exec (.patch 11#5 true) (setsrcOperands a32 rest s) = .next t) :
    Host.Core.run Sys2Proof.core 3 s = .next t := by
  have hcommand : step (setsrcOperands a32 (HostProgram.command (.patch 11#5 true) ++ rest) s) = .next t :=
    (step_command rfl (decode_encode rfl)).trans h
  rw [run_succ_next (step_storeReg (r := .pvalLo) (by decide) (by decide) hin),
    run_succ_next (step_storeReg (r := .pmskLo) (v := 0xFFFFFFFF#32) (by decide) (by decide) rfl)]
  exact run_succ_next hcommand 0

/-- The bytes of a source address in the order of the header (30_encoding.md R76, 00_scope.md R10). -/
def sourceBytes (a32 : Word) : List Byte := (List.range 4).map (byteOf a32 4)

theorem sourceBytes_getElem (a32 : Word) {j : Nat} (h : j < (sourceBytes a32).length) :
    (sourceBytes a32)[j] = byteOf a32 4 j := by
  simp [sourceBytes]

/-- The header from byte 26 on after SETSRC's patch: the source address, then what stood from byte 30 on. -/
theorem afterPatch_setsrc {s : State} (a32 : Word) (rest : List Input) {h₂ : List Byte} (hat₂ : BytesAt s.fb 30 h₂)
    (j : Nat) (hj : j < (sourceBytes a32 ++ h₂).length) :
    afterPatch (setsrcOperands a32 rest s) ⟨26, 4⟩ (26 + j) = some (sourceBytes a32 ++ h₂)[j] := by
  have hlen : (sourceBytes a32).length = 4 := rfl
  by_cases hsrc : j < 4
  · rw [List.getElem_append_left (by omega), sourceBytes_getElem]
    exact afterPatch_lowFull (f := ⟨26, 4⟩) rfl rfl hsrc
  · rw [List.length_append] at hj
    have hread := hat₂ (j - 4) (by omega)
    rw [show 30 + (j - 4) = 26 + j by omega] at hread
    rw [List.getElem_append_right (by omega)]
    exact (afterPatch_outside _ (.inr (by simp only; omega))).trans hread

/-- Settles O33: the field is patched under a full mask, and the header REPAIR then finds is known. -/
theorem setsrcSetsTheSourceAddress : Obligations.SetsrcSetsTheSourceAddress := by
  intro s a32 rest h₁ h₂ hin hl₁ hl₂ hat₁ hat₂
  have hsrc : [a32.extractLsb' 24 8, a32.extractLsb' 16 8, a32.extractLsb' 8 8, a32.extractLsb' 0 8] =
    sourceBytes a32 := rfl
  rw [hsrc]
  have hkept : ∀ x, x < 26 ∨ 30 ≤ x → afterPatch (setsrcOperands a32 rest s) ⟨26, 4⟩ x = s.fb.read x :=
    fun x hx => afterPatch_outside _ hx
  obtain ⟨m, hread, hrepair⟩ := exec_patch_repair_ready (s := setsrcOperands a32 rest s) (sel := 11#5) (f := ⟨26, 4⟩)
    rfl (patchReady_lowFull rfl rfl)
  have hpat₁ : BytesAt m 14 h₁ := bytesAt_congr (fun x _ hx => (hread x).trans (hkept x (by omega))) hat₁
  have hpat₂ : BytesAt m 26 (sourceBytes a32 ++ h₂) :=
    fun j hj => (hread _).trans (afterPatch_setsrc a32 rest hat₂ j hj)
  obtain ⟨m', hok, h24, h25, hout⟩ := repairStoresTheHeaderChecksum { setsrcOperands a32 rest s with fb := m } h₁ _ hl₁
    (by rw [List.length_append, hl₂]; rfl) hpat₁ hpat₂
  refine ⟨m', run_setsrc hin (hrepair.trans hok), h24, h25, fun j hj => ?_, fun x hx => ?_⟩
  · rw [hout _ (by omega) (by omega), hpat₂ j (by rw [List.length_append]; omega), List.getElem_append_left hj]
  · rw [hout x (by omega) (by omega)]
    exact (hread x).trans (hkept x (by omega))

end Sys2Proof.Machine
end

section
/-! SUPPORT. The statements about NOP and TXLEN (42_control.md R140, R141). -/

namespace Sys2Proof.Machine

/-! ### NOP -/

/-- A word of opcode 0 other than NOP's sets format N reserved bits (30_encoding.md R78). -/
theorem reservedBitsSet_of_lt {w : Word} (hne : w ≠ 0#32) (hlt : w.toNat < 2 ^ 28) : ReservedBitsSet w := by
  have hpos : w.toNat ≠ 0 := fun h => hne (BitVec.eq_of_toNat_eq h)
  exact .inr ⟨by omega, by omega⟩

/-- A command word that does not decode raises the decoder's error and does nothing else (30_encoding.md R73). -/
theorem runCommand_decodeError {w : Word} {k : ErrorCode} (s : State) (hdec : decode w = .error k) :
    runCommand w s = .next { s with status := withError (errorNumber k) s.status } := by
  rw [runCommand, hdec, ← statusAfterError_eq]
  rfl

/-- Settles O12: the decoder accepts for NOP its encoding only, and any other word of opcode 0 sets reserved bits. -/
theorem nopChangesNothing : Obligations.NopChangesNothing := by
  refine ⟨fun _ => rfl, fun w => ?_, fun s w hne hlt => ?_⟩
  · calc decode w = .ok .nop
        ↔ Instr.wf .nop = true ∧ encode .nop = w := decodeAcceptsExactlyTheEncodings w .nop
      _ ↔ 0#32 = w := and_iff_right rfl
      _ ↔ w = 0#32 := eq_comm
  · have hlegal : (opField w).toNat < 5 := by rw [opField_toNat]; omega
    have hdec : decode w = .error .reservedField := decode_of_reservedBitsSet hlegal (reservedBitsSet_of_lt hne hlt)
    simpa only [errorNumber] using runCommand_decodeError s hdec

/-! ### TXLEN -/

/-- TXLEN over a written total length is decided by the capacity alone (42_control.md R141). -/
theorem execTxlen_written {s : State} {hi lo : Byte} (h16 : s.fb.read 16 = some hi) (h17 : s.fb.read 17 = some lo) :
    execTxlen s = .next
      (if 256 * hi.toNat + lo.toNat + 14 ≤ s.frameCap then
        { s with txlen := BitVec.ofNat 16 (256 * hi.toNat + lo.toNat + 14) }
      else raiseError .range s) := by
  rcases execTxlen_cases s with ⟨hi', lo', h16', h17', hfits, hr⟩ | ⟨hi', lo', h16', h17', hout, hr⟩ |
    ⟨hnone, -⟩ | ⟨-, hnone, -⟩
  · cases h16.symm.trans h16'
    cases h17.symm.trans h17'
    rw [hr, if_pos hfits]
  · cases h16.symm.trans h16'
    cases h17.symm.trans h17'
    rw [hr, if_neg hout.not_ge]
  · cases h16.symm.trans hnone
  · cases h17.symm.trans hnone

/-- Settles O34: a length within a capacity of at most 65535 does not wrap in the 16 bits of `TXLEN`. -/
theorem txlenDerivesTheSendLength : Obligations.TxlenDerivesTheSendLength := by
  intro s hi lo h16 h17 hfits hcap
  refine ⟨BitVec.ofNat 16 (256 * hi.toNat + lo.toNat + 14), ?_, ?_⟩
  · rw [exec, execTxlen_written h16 h17, if_pos hfits]
  · rw [BitVec.toNat_ofNat, Nat.mod_eq_of_lt (by omega)]

/-- Settles O35: beyond the capacity TXLEN raises Range, which changes `STATUS` only. -/
theorem txlenOutOfRangeRaisesCodeThree : Obligations.TxlenOutOfRangeRaisesCodeThree := by
  intro s hi lo h16 h17 hout
  rw [exec, execTxlen_written h16 h17, if_neg hout.not_ge, raiseError, statusAfterError_eq, errorNumber]

/-- Settles O36: by everything TXLEN can answer, and by the order in which it reads the two bytes. -/
theorem txlenFaultsExactlyOnUnwrittenLength : Obligations.TxlenFaultsExactlyOnUnwrittenLength := by
  intro s e
  constructor
  · intro h
    rcases execTxlen_cases s with ⟨hi, lo, -, -, -, hr⟩ | ⟨hi, lo, -, -, -, hr⟩ | ⟨h16, hr⟩ | ⟨h16, h17, hr⟩ <;>
      rw [exec, hr] at h <;> cases h
    · exact .inl ⟨(not_written_iff ..).2 h16, rfl⟩
    · exact .inr ⟨h16, (not_written_iff ..).2 h17, rfl⟩
  · rintro (⟨h16, rfl⟩ | ⟨h16, h17, rfl⟩)
    · rw [exec, execTxlen, memRead_two, (not_written_iff ..).1 h16]
    · obtain ⟨hi, hhi⟩ := (written_iff ..).1 h16
      rw [exec, execTxlen, memRead_two, hhi, (not_written_iff ..).1 h17]

end Sys2Proof.Machine
end

section
/-! SUPPORT. The statements about errors (60_exceptions.md R150 to R153, R162): what raising one does to `STATUS`, which
commands raise one, and that the engine goes on to the next access. -/

namespace Sys2Proof.Machine

/-- Settles O10: this is the idle step. -/
theorem idleEngineHoldsItsState : Obligations.IdleEngineHoldsItsState := fun _ hin => step_idle hin

/-! ### What an error does to `STATUS` -/

/-- Raising an error in the words of the statements (60_exceptions.md R152). -/
theorem raiseError_eq (k : ErrorCode) (s : State) :
    raiseError k s = { s with status := withError (errorNumber k) s.status } := by
  rw [raiseError, statusAfterError_eq]

/-- Settles O37: the listed number is the error's own, and the bits of `STATUS` are those of `statusAfterError`. -/
theorem raisingAnErrorTouchesOnlyItsBits : Obligations.RaisingAnErrorTouchesOnlyItsBits := by
  intro k n s hmem
  obtain rfl : n = errorNumber k := by cases k <;> simpa [errorNumber] using hmem
  have hsticky : ¬ (16 ≤ 7 + errorNumber k ∧ 7 + errorNumber k < 20) := by cases k <;> decide
  refine ⟨statusAfterError k s.status, rfl, ?_, statusEcode_afterError k s.status, fun i hi hecode => ?_⟩
  · rw [getLsbD_statusAfterError, if_neg hsticky, if_pos rfl]
  · rw [getLsbD_statusAfterError, if_neg hecode, if_neg hi]

/-! ### Which commands raise an error -/

/-- `STATUS` went from `st` to `st'` with every bit but ZERO kept (10_state.md R28). -/
def KeepsAllButZero (st st' : Word) : Prop := ∀ i, 1 ≤ i → st'.getLsbD i = st.getLsbD i

theorem KeepsAllButZero.refl (st : Word) : KeepsAllButZero st st := fun _ _ => rfl

theorem KeepsAllButZero.afterChecksum (c : Half) (st : Word) : KeepsAllButZero st (statusAfterChecksum c st) :=
  fun i hi => by rw [getLsbD_statusAfterChecksum, if_neg (by omega)]

/-- A field above bit 0 is kept. -/
theorem KeepsAllButZero.extractLsb' {st st' : Word} (h : KeepsAllButZero st st') {lo : Nat} (hlo : 1 ≤ lo)
    (k : Nat) : st'.extractLsb' lo k = st.extractLsb' lo k := by
  apply BitVec.eq_of_getLsbD_eq
  intro i _
  rw [BitVec.getLsbD_extractLsb', BitVec.getLsbD_extractLsb', h (lo + i) (by omega)]

theorem repairHeader_keepsAllButZero {s t : State} (h : repairHeader s = .next t) :
    KeepsAllButZero s.status t.status := by
  obtain ⟨h₁, h₂, -, -, -, -, rfl⟩ := repairHeader_next h
  exact .afterChecksum _ _

theorem execPatch_keepsAllButZero {sel : BitVec 5} {r : Bool} {s t : State} (hsel : sel.toNat < fieldCount)
    (h : execPatch sel r s = .next t) : KeepsAllButZero s.status t.status := by
  obtain ⟨f, hf⟩ := fieldOf_isSome hsel
  cases hp : patchField f (patchValue s) (patchMask s) s.fb with
  | error a =>
    rw [execPatch_error r hf hp] at h
    cases h
  | ok m =>
    rw [execPatch_ok r hf hp] at h
    cases r with
    | false => cases h; exact .refl _
    | true => exact repairHeader_keepsAllButZero (s := { s with fb := m }) h

/-- What a well-formed command that completes does to `STATUS`: CSUM and TXLEN may raise Range and do nothing else;
otherwise every bit but ZERO is kept (60_exceptions.md R151, R152). -/
theorem exec_next_status {i : Instr} {s t : State} (hwf : i.wf = true) (h : exec i s = .next t) :
    ((i = .csum ∨ i = .txlen) ∧ t = raiseError .range s) ∨ KeepsAllButZero s.status t.status := by
  cases i with
  | nop => cases h; exact .inr (.refl _)
  | csum =>
    rcases execCsum_cases s with ⟨-, hr⟩ | ⟨-, bs, -, -, hr⟩ | ⟨-, j, -, -, -, hr⟩ <;>
      rw [exec, hr] at h <;> cases h
    · exact .inl ⟨.inl rfl, rfl⟩
    · exact .inr (.afterChecksum _ _)
  | repair => exact .inr (repairHeader_keepsAllButZero h)
  | patch sel r => exact .inr (execPatch_keepsAllButZero (of_decide_eq_true hwf) h)
  | txlen =>
    rcases execTxlen_cases s with ⟨hi, lo, -, -, -, hr⟩ | ⟨hi, lo, -, -, -, hr⟩ | ⟨-, hr⟩ | ⟨-, -, hr⟩ <;>
      rw [exec, hr] at h <;> cases h
    · exact .inr (.refl _)
    · exact .inl ⟨.inr rfl, rfl⟩

/-- Settles O39: a command that kept every bit but ZERO would have kept the error bits and `ECODE`. -/
theorem onlyCsumAndTxlenRaiseRange : Obligations.OnlyCsumAndTxlenRaiseRange := by
  intro s t i hwf h hchanged
  rcases exec_next_status hwf h with ⟨hi, ht⟩ | hkeeps
  · exact ⟨hi, ht.trans (raiseError_eq .range s)⟩
  · have herr : statusErr t.status = statusErr s.status := hkeeps.extractLsb' (by decide) 3
    have hecode : statusEcode t.status = statusEcode s.status := hkeeps.extractLsb' (by decide) 4
    exact absurd hchanged (not_or.2 ⟨not_not.2 herr, not_not.2 hecode⟩)

/-- Settles O38: the decoder's error, the Range error of a decoded command, or a command that keeps all but ZERO. -/
theorem failingCommandsArePrecise : Obligations.FailingCommandsArePrecise := by
  intro s t w h
  rcases runCommand_next_cases h with ⟨k, -, ht⟩ | ⟨i, hdec, hexec⟩
  · exact .inl ⟨errorNumber k, errorNumber_mem k, ht.trans (raiseError_eq k s)⟩
  · rcases exec_next_status (encode_of_decode hdec).1 hexec with ⟨-, ht⟩ | hkeeps
    · exact .inl ⟨errorNumber .range, errorNumber_mem .range, ht.trans (raiseError_eq .range s)⟩
    · exact .inr hkeeps

/-! ### The engine goes on -/

section
variable {s : State} (hw : ∀ x, x < s.frameCap → s.fb.written x = true)
include hw

/-- CSUM raises Range, or its range lies in the written buffer. -/
theorem execCsum_completes : ∃ t, execCsum s = .next t := by
  by_cases hrange : s.off.toNat + s.len.toNat ≤ s.frameCap
  · obtain ⟨bs, hlen, hat⟩ := exists_bytesAt (m := s.fb) (a := s.off.toNat) (n := s.len.toNat)
      fun k hk => hw _ (by omega)
    exact ⟨_, execCsum_in hrange hlen hat⟩
  · exact ⟨_, execCsum_out (Nat.lt_of_not_le hrange)⟩

variable (hcap : 42 ≤ s.frameCap)
include hcap

theorem repairHeader_completes : ∃ t, repairHeader s = .next t := by
  obtain ⟨h₁, h₂, hl₁, hl₂, hat₁, hat₂⟩ := headerLoaded_bytes (s := s) fun i _ hi _ _ => hw i (by omega)
  exact ⟨_, repairHeader_loaded hl₁ hl₂ hat₁ hat₂⟩

/-- Every field lies in the written buffer, and a patch clears no mark, so that a repair after it finds its bytes. -/
theorem execPatch_completes (sel : BitVec 5) (r : Bool) : ∃ t, execPatch sel r s = .next t := by
  cases hf : fieldOf sel with
  | none => exact ⟨_, execPatch_reserved r s ((fieldOf_eq_none_iff sel).1 hf)⟩
  | some f =>
    have hinside := (fieldOf_inside hf).1
    have hready : PatchReady s f := fun j hj _ => hw _ (by omega)
    obtain ⟨m, hm, -⟩ := patchField_ready hready
    have hkeeps := (patchField_update hinside hm).keeps
    rw [execPatch_ok r hf hm]
    cases r with
    | false => exact ⟨_, rfl⟩
    | true => exact repairHeader_completes (s := { s with fb := m }) (fun x hx => hkeeps x (hw x hx)) hcap

theorem execTxlen_completes : ∃ t, execTxlen s = .next t := by
  obtain ⟨hi, hhi⟩ := (written_iff ..).1 (hw 16 (by omega))
  obtain ⟨lo, hlo⟩ := (written_iff ..).1 (hw 17 (by omega))
  exact ⟨_, execTxlen_written hhi hlo⟩

theorem exec_completes (i : Instr) : ∃ t, exec i s = .next t := by
  cases i with
  | nop => exact ⟨s, rfl⟩
  | csum => exact execCsum_completes hw
  | repair => exact repairHeader_completes hw hcap
  | patch sel r => exact execPatch_completes hw hcap sel r
  | txlen => exact execTxlen_completes hw hcap

theorem runCommand_completes (w : Word) : ∃ t, runCommand w s = .next t := by
  cases hdec : decode w with
  | ok i => simpa only [runCommand, hdec] using exec_completes hw hcap i
  | error k => exact ⟨_, runCommand_decodeError s hdec⟩

end

/-- A command takes no pending input: the host's accesses are its own (20_memory.md R51). -/
theorem exec_inputs {i : Instr} {s t : State} (h : exec i s = .next t) : t.inputs = s.inputs := by
  rcases exec_next_cases h with ⟨k, rfl⟩ | ⟨-, rfl⟩ | ⟨-, bs, rfl⟩ | ⟨-, bs, m, -, rfl⟩ | ⟨-, m, -, rfl⟩ |
    ⟨-, n, -, -, -, rfl⟩ <;> rfl

theorem runCommand_inputs {w : Word} {s t : State} (h : runCommand w s = .next t) : t.inputs = s.inputs := by
  rcases runCommand_next_cases h with ⟨k, -, rfl⟩ | ⟨i, -, hexec⟩
  · rfl
  · exact exec_inputs hexec

/-- Settles O11: every command completes on a written buffer, and none takes a further input. -/
theorem everyCommandWordCompletesOnAWrittenBuffer : Obligations.EveryCommandWordCompletesOnAWrittenBuffer := by
  intro s w rest hcap hw hin
  obtain ⟨t, ht⟩ := runCommand_completes (s := { s with inputs := rest }) hw hcap w
  exact ⟨t, (step_regWrite .cmd hin).trans ht, runCommand_inputs ht⟩

end Sys2Proof.Machine
end

section
/-! SUPPORT. The statements about reset (70_reset_and_hazards.md R170 to R172): a reset input performs `resetMachine`,
and the state after power-on is what it leaves too. -/

namespace Sys2Proof.Machine

/-- A reset input is performed whatever the state (70_reset_and_hazards.md R171). -/
theorem step_reset {s : State} {rest : List Input} (hin : s.inputs = .reset :: rest) :
    step s = .next (resetMachine { s with inputs := rest }) :=
  step_cons hin

/-- Power-on and a later reset leave the registers and `FB` alike (70_reset_and_hazards.md R170). -/
theorem resetMachine_reset : resetMachine State.reset = State.reset := rfl

/-- No byte of the empty buffer, the one reset leaves, is written (70_reset_and_hazards.md R170). -/
@[simp] theorem written_nil (x : Nat) : Memory.written [] x = false := rfl

/-- Settles O55: after power-on and after a reset input alike, the state is one that `resetMachine` leaves. -/
theorem resetGivesTheResetValues : Obligations.ResetGivesTheResetValues := by
  intro s t rest h
  obtain ⟨u, rfl⟩ : ∃ u, t = resetMachine u := by
    rcases h with rfl | ⟨hin, hstep⟩
    · exact ⟨State.reset, resetMachine_reset.symm⟩
    · rw [step_reset hin] at hstep
      cases hstep
      exact ⟨_, rfl⟩
  simp [readReg, idValue]

/-- Settles O56, by the step of a reset input. -/
theorem resetCompletes : Obligations.ResetCompletes := fun _ _ hin =>
  ⟨_, step_reset hin, resetMachine_frameCap _, resetMachine_inputs _⟩

end Sys2Proof.Machine
end

section
/-! SUPPORT. The words the spec writes out, and PATCH executed with a reserved selector (30_encoding.md R71 to R76). -/

namespace Sys2Proof.Machine

/-- Settles O4: the seven legal words are the encodings of their commands, and the check that rejects each of the other
three is read off its bits. -/
theorem specWordsDecodeAsWritten : Obligations.SpecWordsDecodeAsWritten := by
  refine ⟨decode_encode (i := .nop) rfl, decode_encode (i := .csum) rfl, decode_encode (i := .repair) rfl,
    decode_encode (i := .patch 3#5 false) rfl, decode_encode (i := .patch 11#5 true) rfl,
    decode_encode (i := .patch 16#5 true) rfl, decode_encode (i := .txlen) rfl, ?_, ?_, ?_⟩
  · exact decode_of_reservedBitsSet (by decide) (.inl ⟨rfl, .inr (by decide)⟩)
  · exact decode_of_reservedBitsSet (by decide) (.inl ⟨rfl, .inl (by decide)⟩)
  · exact (decodeErrorsInOrder _).1.2 (by decide)

/-- Settles O27: a reserved selector names no field, so the only effect is that of raising ReservedField. -/
theorem patchReservedSelectorRaisesCodeTwo : Obligations.PatchReservedSelectorRaisesCodeTwo := by
  intro s sel r hsel
  calc exec (.patch sel r) s
      = .next (raiseError .reservedField s) := execPatch_reserved r s hsel
    _ = .next { s with status := withError 2 s.status } := congrArg _ (raiseError_eq .reservedField s)

end Sys2Proof.Machine
end
